-- ==== Sys2Proof/Word.lean ====
section
/-! DEFINITION. Bytes, the three word widths of the core, and words of a given width. -/

namespace Sys2Proof

/-- A byte is 8 bits (rule R16). -/
abbrev Byte := BitVec 8

/-- The values the parameter `w` may take: 16, 32 and 64 (rule R4). Any other width is not an
instance of this hardware (rule R8) and cannot be written down. -/
inductive Width where
  | w16
  | w32
  | w64
deriving DecidableEq, Repr

/-- The word width in bits (rule R4). -/
def Width.bits : Width → Nat
  | .w16 => 16
  | .w32 => 32
  | .w64 => 64

end Sys2Proof
end

