-- ==== Sys2Proof/Config.lean ====
section
/-! DEFINITION. The configuration (w, r, b) of an instance and the parameters derived from it
(00_scope.md, rules R4 to R15). -/

namespace Sys2Proof

/-- The configuration of one instance: word width (rule R4), round count 0 to 255 (rule R5) and key
length in bytes 0 to 255 (rule R6), fixed when the instance is built (rule R7). A configuration
outside these ranges has no value of this type (rule R8). -/
structure Config where
  width    : Width
  rounds   : Fin 256
  keyBytes : Fin 256
deriving DecidableEq, Repr

namespace Config

/-- Parameter `w`, the word width in bits (rule R4). -/
def w (g : Config) : Nat := g.width.bits

/-- Parameter `r`, the round count (rule R5). -/
def r (g : Config) : Nat := g.rounds.val

/-- Parameter `b`, the key length in bytes (rule R6). -/
def b (g : Config) : Nat := g.keyBytes.val

/-- `u = w / 8`, the bytes of a word (rule R9). -/
def u (g : Config) : Nat := g.w / 8

/-- `t = 2 * (r + 1)`, the words of the round-word table (rule R10). -/
def t (g : Config) : Nat := 2 * (g.r + 1)

/-- `c`, the number of key words: `ceil (b / u)`, and 1 when `b = 0` (rule R11). -/
def c (g : Config) : Nat := if g.b = 0 then 1 else (g.b + g.u - 1) / g.u

/-- `n_mix = 3 * max(t, c)`, the mixing iterations of a key schedule (rule R12). -/
def nMix (g : Config) : Nat := 3 * max g.t g.c

/-- `lgw = log2 w`, the bits of a rotation amount (rule R13). -/
def lgw (g : Config) : Nat :=
  match g.width with
  | .w16 => 4
  | .w32 => 5
  | .w64 => 6

/-- `2u`, the bytes of a block (rule R14). -/
def blockBytes (g : Config) : Nat := 2 * g.u

/-- `dmax = max(b, 2u)`, the byte lanes of the command data input (rule R15). -/
def dmax (g : Config) : Nat := max g.b g.blockBytes

/-- A word: an unsigned integer of exactly `w` bits (rule R16). -/
abbrev Word (g : Config) := BitVec g.w

theorem t_pos (g : Config) : 0 < g.t := by unfold t; omega

theorem one_lt_t (g : Config) : 1 < g.t := by unfold t; omega

theorem u_pos (g : Config) : 0 < g.u := by unfold u w; cases g.width <;> decide

theorem c_pos (g : Config) : 0 < g.c := by
  unfold c
  split
  · omega
  · have := g.u_pos
    exact Nat.div_pos (by omega) this

/-- `j / u < c` for `j < b`: the packing index is in range (rule R61). -/
theorem div_u_lt_c (g : Config) {j : Nat} (h : j < g.b) : j / g.u < g.c := by
  have hu := g.u_pos
  unfold c
  rw [if_neg (by omega), Nat.div_lt_iff_lt_mul hu]
  have h1 := Nat.div_add_mod (g.b + g.u - 1) g.u
  have h2 := Nat.mod_lt (g.b + g.u - 1) hu
  have h3 : (g.b + g.u - 1) / g.u * g.u = g.u * ((g.b + g.u - 1) / g.u) := Nat.mul_comm _ _
  omega

theorem b_le_dmax (g : Config) : g.b ≤ g.dmax := Nat.le_max_left _ _

theorem blockBytes_le_dmax (g : Config) : g.blockBytes ≤ g.dmax := Nat.le_max_right _ _

/-- `2i + 1 < t` for `i <= r`: the round indices are in range (rule R61). -/
theorem round_lt_t (g : Config) {i : Nat} (h : i ≤ g.r) : 2 * i + 1 < g.t := by unfold t; omega

end Config

end Sys2Proof
end

