-- ==== Sys2Proof/Syntax.lean ====
section
/-! DEFINITION. The commands of the core: one constructor for each row of spec/opcode_table.json. -/

namespace Sys2Proof

/-- A command as its header names it (rules R77 and R79). `len` is the header's LEN field, "payload
length in bytes, an unsigned natural 0..255" (log entry 12). The payload is not part of the header: it stands on
`cmd_data` at the acceptance edge (rule R78). -/
inductive Instr where
  /-- OP 0x01: expand the key into the round-word table (rule R102). -/
  | keysched (len : Nat)
  /-- OP 0x02: encrypt one block (rule R115). -/
  | encrypt (len : Nat)
  /-- OP 0x03: decrypt one block (rule R124). -/
  | decrypt (len : Nat)
  /-- OP 0x04: erase the round-word table and all key material (rule R132). -/
  | zeroize (len : Nat)
deriving DecidableEq, Repr

/-- The LEN field of a command (rule R77). -/
def Instr.len : Instr → Nat
  | .keysched n => n
  | .encrypt n => n
  | .decrypt n => n
  | .zeroize n => n

end Sys2Proof
end

