-- ==== Sys2Proof/WellFormed.lean ====
section
/-! DEFINITION. Which commands have a header: LEN is an 8-bit field. -/

namespace Sys2Proof

/-- A command is well formed when its LEN fits the header's 8-bit field, "an unsigned natural 0..255"
(rule R77). Whether LEN is the RIGHT length is no matter of form: a wrong one is a length error the
core reports (rules R81 and R84). -/
def Instr.wellFormed (i : Instr) : Bool :=
  match i with
  | .keysched n => decide (n < 256)
  | .encrypt n => decide (n < 256)
  | .decrypt n => decide (n < 256)
  | .zeroize n => decide (n < 256)

end Sys2Proof
end

