-- ==== Sys2Proof/Decode.lean ====
section
/-! DEFINITION. The header of a command (rules R77 and R79): its fields, the decoder, total on every
16-bit header and rejecting a reserved opcode by name, and the encoder. -/

namespace Sys2Proof

/-- Why a header names no command of the opcode table. -/
inductive DecodeError where
  /-- OP is 0x00 or 0x05 to 0xFF (rule R83); the core answers ILLEGAL_COMMAND (rule R135). -/
  | reservedOpcode (op : Byte)
deriving DecidableEq, Repr

/-- The field OP, `cmd_hdr[7:0]` (rule R77). -/
def hdrOp (h : BitVec 16) : Byte := h.extractLsb' 0 8

/-- The field LEN, `cmd_hdr[15:8]`, zero-extended and not scaled (rule R77). -/
def hdrLen (h : BitVec 16) : Nat := (h.extractLsb' 8 8).toNat

/-- The command a header names (rules R79 and R80). -/
def decode (h : BitVec 16) : Except DecodeError Instr :=
  match (hdrOp h).toNat with
  | 1 => .ok (.keysched (hdrLen h))
  | 2 => .ok (.encrypt (hdrLen h))
  | 3 => .ok (.decrypt (hdrLen h))
  | 4 => .ok (.zeroize (hdrLen h))
  | _ => .error (.reservedOpcode (hdrOp h))

/-- The opcode of a command (rule R79). -/
def Instr.opcode : Instr → Byte
  | .keysched _ => 0x01
  | .encrypt _ => 0x02
  | .decrypt _ => 0x03
  | .zeroize _ => 0x04

/-- The header of a command: LEN in bits 15:8 and OP in bits 7:0 (rule R77). -/
def encode (i : Instr) : BitVec 16 := BitVec.ofNat 8 i.len ++ i.opcode

/-- The header an opcode-table word gives: the bits of `w` below `nbits`, every bit above them 0. A
header is one 16-bit word on a bus, so no byte order comes in (log entry 9). -/
def tableHeader (nbits w : Nat) : BitVec 16 := BitVec.ofNat 16 (w % 2 ^ nbits)

/-- The command the decoder reads from an opcode-table word; none where it refuses, or where the
word has a bit above the header's 16 (log entry 9). -/
def decodeTableWord (nbits w : Nat) : Option Instr :=
  if w % 2 ^ nbits < 2 ^ 16 then
    match decode (tableHeader nbits w) with
    | .ok i => some i
    | .error _ => none
  else none

end Sys2Proof
end

