-- ==== Sys2Proof/Machine/Arith.lean ====
section
/-! DEFINITION. The word arithmetic layer (40_word_arithmetic.md): rotations, the little-endian codec
and the constants P and Q. Addition and subtraction modulo 2^w and xor are those of BitVec
(rules R88, R89 and R90). -/

namespace Sys2Proof.Machine

/-- `rotl(x, n)` for a natural amount, reduced modulo the width (rule R91). -/
def rotl {n : Nat} (x : BitVec n) (amount : Nat) : BitVec n := x.rotateLeft amount

/-- `rotr(x, n)` for a natural amount, reduced modulo the width (rule R92). -/
def rotr {n : Nat} (x : BitVec n) (amount : Nat) : BitVec n := x.rotateRight amount

/-- The rotation amount a word gives: its low `lgw` bits "and nothing else" (rule R93). -/
def rotAmount {g : Config} (n : g.Word) : Nat := (n.extractLsb' 0 g.lgw).toNat

/-- `rotl(x, n)` by a word (rules R91 and R93). -/
def rotlW {g : Config} (x n : g.Word) : g.Word := rotl x (rotAmount n)

/-- `rotr(x, n)` by a word (rules R92 and R93). -/
def rotrW {g : Config} (x n : g.Word) : g.Word := rotr x (rotAmount n)

/-- `word_from_byte(v) = zext_w(v)` (rule R95). -/
def wordFromByte (g : Config) (v : Byte) : g.Word := v.setWidth g.w

/-- `sum over j of d[j] * 2^(8j)`, the first byte least significant (rule R96). -/
def leSum (d : List Byte) : Nat := d.foldr (fun x acc => x.toNat + 256 * acc) 0

/-- `le_decode(d[0..u))` (rule R96). -/
def leDecode {g : Config} (d : Vector Byte g.u) : g.Word := BitVec.ofNat g.w (leSum d.toList)

/-- `le_encode(x)`: `d[j] = x[8j+7:8j]` (rule R97). -/
def leEncode {g : Config} (x : g.Word) : Vector Byte g.u :=
  Vector.ofFn fun j => x.extractLsb' (8 * j.val) 8

/-- The constant `P` (rule R98). The values for w = 16 and w = 64 are the spec's own, from general
knowledge (D19; log entry 6). -/
def constP (g : Config) : g.Word :=
  BitVec.ofNat g.w
    (match g.width with
     | .w16 => 0xB7E1
     | .w32 => 0xB7E15163
     | .w64 => 0xB7E151628AED2A6B)

/-- The constant `Q` (rule R99). The values for w = 16 and w = 64 are the spec's own, from general
knowledge (D19; log entry 6). -/
def constQ (g : Config) : g.Word :=
  BitVec.ofNat g.w
    (match g.width with
     | .w16 => 0x9E37
     | .w32 => 0x9E3779B9
     | .w64 => 0x9E3779B97F4A7C15)

end Sys2Proof.Machine
end

