-- ==== Sys2Proof/Machine/State.lean ====
section
/-! DEFINITION. Every piece of state of 10_state.md section 2, the host's inputs at the coming clock
edges, why a step can stop, and the state after reset (rule R59). -/

namespace Sys2Proof.Machine

/-- `phase`, the sequencer state (rule R33): it names the engine step the next edge performs. Its
binary encoding is not specified (U4), so the phases are names (log entry 7). -/
inductive Phase where
  | idle
  | ksPack
  | ksInit
  | ksMix
  | ksFinish
  | encWhiten
  | encRound
  | decRound
  | decUnwhiten
  | xfFinish
  | zz
  | err
deriving DecidableEq, Repr

/-- The state elements of an instance `g` (rules R33 to R44; "nothing else is state"). -/
structure Regs (g : Config) where
  /-- The sequencer state (rule R33). -/
  phase     : Phase
  /-- The step counter, a natural number (rule R34). -/
  k         : Nat
  /-- The mixing cursor of `S` (rule R35). -/
  si        : Fin g.t
  /-- The mixing cursor of `L` (rule R35). -/
  li        : Fin g.c
  /-- Working word `A` (rule R36). -/
  A         : g.Word
  /-- Working word `B` (rule R36). -/
  B         : g.Word
  /-- The round-word table (rule R37). -/
  S         : Vector g.Word g.t
  /-- The key-word array (rule R38). -/
  L         : Vector g.Word g.c
  /-- The key byte buffer (rule R39). -/
  KEY       : Vector Byte g.b
  /-- `key_valid` (rule R40). -/
  keyValid  : Bool
  /-- `rsp_valid` (rule R41). -/
  rspValid  : Bool
  /-- `rsp_status` (rule R42). -/
  rspStatus : Byte
  /-- `RSP_DATA` (rule R43). -/
  rspData   : Vector Byte g.blockBytes
  /-- `errc` (rule R44). -/
  errc      : Byte
deriving DecidableEq, Repr

/-- The host's inputs at one rising edge of `clk` (rules R25 to R28). -/
structure HostEdge (g : Config) where
  rst      : Bool
  cmdValid : Bool
  cmdHdr   : BitVec 16
  cmdData  : BitVec (8 * g.dmax)
deriving DecidableEq, Repr

/-- The inputs of a host that neither resets nor presents a command. -/
def HostEdge.quiet (g : Config) : HostEdge g :=
  { rst := false, cmdValid := false, cmdHdr := 0, cmdData := 0 }

/-- The machine: an instance, its state elements, and the host's inputs at the coming edges. -/
structure State where
  /-- The instance's parameters `(w, r, b)`, which nothing writes (rule R7; log entry 2). -/
  cfg       : Config
  /-- The state elements. -/
  regs      : Regs cfg
  /-- Whether a reset edge has happened since power-up (rule R159; log entry 4). -/
  resetSeen : Bool
  /-- The inputs at the coming edges, the next edge first; a host whose inputs have run out is
  quiet (rule R170; log entry 3). -/
  host      : List (HostEdge cfg)
deriving DecidableEq, Repr

/-- The faults of the model. The core itself has none (rule R139). -/
inductive Fault where
  /-- Raised by the engine steps KS_PACK, KS_INIT, ENC_ROUND and DEC_ROUND when the counter `k` is
  outside the range their phase gives it, so that the step would index an array out of range: "No
  out-of-range access exists, so none is defined" (rule R61). No run reaches such a state.
  Safe: the model stops (log entry 5). -/
  | counterOutOfRange (phase : Phase) (k : Nat)
deriving DecidableEq, Repr

/-- The refusals of the model. -/
inductive Refusal where
  /-- An instruction with no meaning in this model; raised by `exec` alone. Safe. -/
  | notModelled (mnemonic : String)
  /-- Raised by every edge that is not a reset edge before the first reset edge after power-up: "A
  model starts every run from the state after a reset edge and refuses a run that issues a command
  before one" (rule R159, U1). Safe: the model stops (log entry 4). -/
  | beforeFirstReset
deriving DecidableEq, Repr

/-- The reset value of every state element (rule R59). -/
def Regs.reset (g : Config) : Regs g :=
  { phase := .idle, k := 0
    si := ⟨0, g.t_pos⟩, li := ⟨0, g.c_pos⟩
    A := 0, B := 0
    S := Vector.replicate _ 0, L := Vector.replicate _ 0, KEY := Vector.replicate _ 0
    keyValid := false, rspValid := false, rspStatus := 0, rspData := Vector.replicate _ 0
    errc := 0 }

/-- An instance `g` right after a reset edge, with a host that is quiet from then on. -/
def State.resetOf (g : Config) : State :=
  { cfg := g, regs := Regs.reset g, resetSeen := true, host := [] }

/-- RC5-32/12/16, the configuration the spec names as its example (rule R2). -/
def rc5_32_12_16 : Config := { width := .w32, rounds := 12, keyBytes := 16 }

/-- The machine right after reset (rule R59), for the instance RC5-32/12/16: the spec leaves the
configuration open (D2, U3), so this one is the model's choice (log entry 2). -/
def State.reset : State := State.resetOf rc5_32_12_16

/-- The inputs at the next edge. -/
def State.now (s : State) : HostEdge s.cfg := s.host.headD (HostEdge.quiet s.cfg)

end Sys2Proof.Machine
end

