-- ==== Sys2Proof/Machine/Operands.lean ====
section
/-! DEFINITION. The operands of a command: the payload bytes on `cmd_data`, the key and the two words
of a block; and the bytes of a result block. -/

namespace Sys2Proof.Machine

/-- The command payload as sampled at acceptance. -/
abbrev Payload (g : Config) := Vector Byte g.dmax

/-- The two words of a block: `A` the low half, `B` the high half (rule R14). -/
structure WordPair (g : Config) where
  A : g.Word
  B : g.Word
deriving DecidableEq, Repr

/-- `payload[j] = cmd_data[8j+7:8j]` (rules R28, R55 and R78). -/
def HostEdge.payload {g : Config} (e : HostEdge g) : Payload g :=
  Vector.ofFn fun j => e.cmdData.extractLsb' (8 * j.val) 8

/-- The key `payload[0..b)` (rule R78). -/
def keyOf {g : Config} (p : Payload g) : Vector Byte g.b :=
  Vector.ofFn fun j => p[j.val]'(Nat.lt_of_lt_of_le j.isLt g.b_le_dmax)

/-- The block `payload[0..2u)` (rule R78). -/
def blockOf {g : Config} (p : Payload g) : Vector Byte g.blockBytes :=
  Vector.ofFn fun j => p[j.val]'(Nat.lt_of_lt_of_le j.isLt g.blockBytes_le_dmax)

/-- The words of a block: bytes `0..u` form `A` and bytes `u..2u` form `B`, both little-endian
(rule R63). -/
def blockWords {g : Config} (d : Vector Byte g.blockBytes) : WordPair g :=
  { A := leDecode (Vector.ofFn fun j : Fin g.u =>
      d[j.val]'(by have := j.isLt; unfold Config.blockBytes; omega))
    B := leDecode (Vector.ofFn fun j : Fin g.u =>
      d[g.u + j.val]'(by have := j.isLt; unfold Config.blockBytes; omega)) }

/-- `le_encode(A) ++ le_encode(B)`, the bytes of a block (rule R63). -/
def wordsBlock {g : Config} (p : WordPair g) : Vector Byte g.blockBytes :=
  (leEncode p.A ++ leEncode p.B).cast (by unfold Config.blockBytes; omega)

/-- `2u` zero bytes. -/
def zeroBlock (g : Config) : Vector Byte g.blockBytes := Vector.replicate _ 0

end Sys2Proof.Machine
end

