-- ==== Sys2Proof/Machine/Flags.lean ====
section
/-! DEFINITION. The flags and the output ports (10_state.md sections 1, 3 and 4). Outputs are
functions of the state and `rst`; reading one changes nothing (rule R70). -/

namespace Sys2Proof.Machine

/-- Flag BUSY is `phase /= IDLE` (rule R47). -/
def Regs.busy {g : Config} (r : Regs g) : Bool := decide (r.phase ≠ .idle)

/-- `sts[15:0]` (rules R30 and R50): RSP_STATUS in bits 15:8, 0 in bits 7:3, RSP_VALID, KEY_VALID
and BUSY in bits 2, 1 and 0. -/
def Regs.sts {g : Config} (r : Regs g) : BitVec 16 :=
  r.rspStatus ++ (0 : BitVec 5) ++ BitVec.ofBool r.rspValid ++ BitVec.ofBool r.keyValid
    ++ BitVec.ofBool r.busy

/-- `rsp_data[16u-1:0]`: byte `j` of RSP_DATA at bits `8j+7:8j` (rules R31 and R65). -/
def Regs.rspBus {g : Config} (r : Regs g) : BitVec (16 * g.u) :=
  BitVec.ofNat _ (leSum r.rspData.toList)

/-- `cmd_ready = (phase = IDLE) and (rst = 0)` (rule R29). -/
def Regs.cmdReady {g : Config} (r : Regs g) (rst : Bool) : Bool := !r.busy && !rst

/-- `cfg[23:0]`: `b`, `r` and `w` in one byte each (rules R32 and R51). -/
def Config.word (g : Config) : BitVec 24 :=
  BitVec.ofNat 8 g.b ++ BitVec.ofNat 8 g.r ++ BitVec.ofNat 8 g.w

/-- The output `cfg`, constant "from power-up on" (rule R159). -/
def State.cfgOut (s : State) : BitVec 24 := Config.word s.cfg

/-- The output `sts`; unspecified before the first reset edge (rule R159; log entry 4). -/
def State.sts (s : State) : Option (BitVec 16) :=
  if s.resetSeen then some s.regs.sts else none

/-- The output `rsp_data`; unspecified before the first reset edge (rule R159; log entry 4). -/
def State.rspBus (s : State) : Option (BitVec (16 * s.cfg.u)) :=
  if s.resetSeen then some s.regs.rspBus else none

/-- The output `cmd_ready` under the inputs of the next edge. "While `rst = 1` the output `cmd_ready` is
0" (rule R157), whatever the state, so also before the first reset edge; there, with `rst = 0`, it depends
on an unspecified phase and is unspecified (rules R29 and R159; log entry 4). -/
def State.cmdReady (s : State) : Option Bool :=
  if s.now.rst then some false
  else if s.resetSeen then some (s.regs.cmdReady s.now.rst)
  else none

end Sys2Proof.Machine
end

