-- ==== Sys2Proof/Machine/Ops.lean ====
section
/-! DEFINITION. The operations every command shares: the check of rule R140, clearing and writing the
response (rules R55 and R57), rejecting a command and completing the rejection (rules R146 and
R147: the core's taking of an error and its return), and the reset edge (rule R59). -/

namespace Sys2Proof.Machine

/-- The response statuses (rule R82). -/
inductive Status where
  | ok
  | keyLengthMismatch
  | blockLengthMismatch
  | illegalCommand
  | noKey
deriving DecidableEq, Repr

/-- The status codes (rule R82). -/
def Status.code : Status → Byte
  | .ok => 0x00
  | .keyLengthMismatch => 0x01
  | .blockLengthMismatch => 0x02
  | .illegalCommand => 0x03
  | .noKey => 0x04

/-- `check(op, len, kv)`: the first condition that holds, in the order of rule R140. -/
def check (g : Config) (op : Byte) (len : Nat) (kv : Bool) : Status :=
  if ¬(op = 0x01 ∨ op = 0x02 ∨ op = 0x03 ∨ op = 0x04) then .illegalCommand
  else if op = 0x01 ∧ len ≠ g.b then .keyLengthMismatch
  else if (op = 0x02 ∨ op = 0x03) ∧ len ≠ g.blockBytes then .blockLengthMismatch
  else if (op = 0x02 ∨ op = 0x03) ∧ kv = false then .noKey
  else .ok

/-- An acceptance clears the response registers (rule R55). -/
def Regs.clearResponse {g : Config} (r : Regs g) : Regs g :=
  { r with rspValid := false, rspStatus := 0, rspData := zeroBlock g }

/-- A rejected command: its code goes to `errc` and the sequencer to ERR; nothing is saved and
nothing else changes (rule R146). -/
def Regs.reject {g : Config} (st : Status) (r : Regs g) : Regs g :=
  { r with errc := st.code, phase := .err }

/-- Acceptance of a command with opcode `op` and length `len`, whose own acceptance rule is `rule`
(rule R55). -/
def Regs.acceptWith {g : Config} (op : Byte) (len : Nat) (rule : Regs g → Regs g) (r : Regs g) :
    Regs g :=
  let st := check g op len r.keyValid
  if st = .ok then rule r.clearResponse else r.clearResponse.reject st

/-- `complete(status, data)` (rule R57). -/
def Regs.complete {g : Config} (status : Byte) (data : Vector Byte g.blockBytes) (r : Regs g) :
    Regs g :=
  { r with rspStatus := status, rspData := data, rspValid := true, errc := 0, k := 0,
           phase := .idle }

/-- Step ERR: the rejection completes with its code and zero data (rule R147). -/
def Regs.errStep {g : Config} (r : Regs g) : Regs g := r.complete r.errc (zeroBlock g)

/-- `L`, `KEY`, `A`, `B`, `si` and `li` all zero (the erasure of rules R113 and R134). -/
def Regs.eraseScratch {g : Config} (r : Regs g) : Regs g :=
  { r with L := Vector.replicate _ 0, KEY := Vector.replicate _ 0, A := 0, B := 0,
           si := ⟨0, g.t_pos⟩, li := ⟨0, g.c_pos⟩ }

/-- A reset edge: every state element takes its reset value, whatever was in progress (rules R25,
R59, R157 and R158). -/
def State.afterReset (s : State) : State :=
  { s with regs := Regs.reset s.cfg, resetSeen := true, host := s.host.tail }

end Sys2Proof.Machine
end

