-- ==== Sys2Proof/Machine/Encrypt.lean ====
section
/-! DEFINITION. The encryption engine (42_encrypt.md): `encrypt` (rule R116), the acceptance and
engine steps of ENCRYPT (rules R119 to R121), and the finishing step it shares with DECRYPT
(rule R122). -/

namespace Sys2Proof.Machine

variable {g : Config}

/-- Whitening: `A <- A +w S[0]; B <- B +w S[1]` (rule R116). -/
def whiten (S : Vector g.Word g.t) (p : WordPair g) : WordPair g :=
  have h := g.one_lt_t
  { A := p.A + S[0], B := p.B + S[1] }

/-- Round `i` of encryption; the second line uses the `A` just written (rules R20 and R116). -/
def encRound (S : Vector g.Word g.t) (i : Nat) (hi : i ≤ g.r) (p : WordPair g) : WordPair g :=
  have h := g.round_lt_t hi
  let a := rotlW (p.A ^^^ p.B) p.B + S[2 * i]
  let b := rotlW (p.B ^^^ a) a + S[2 * i + 1]
  { A := a, B := b }

/-- Rounds 1 to `n` of encryption, in that order (rule R116). -/
def encRounds (S : Vector g.Word g.t) (p : WordPair g) : (n : Nat) → n ≤ g.r → WordPair g
  | 0, _ => p
  | n + 1, h => encRound S (n + 1) h (encRounds S p n (Nat.le_of_succ_le h))

/-- `encrypt(d[0..2u), S)` (rule R116). -/
def encrypt (d : Vector Byte g.blockBytes) (S : Vector g.Word g.t) : Vector Byte g.blockBytes :=
  wordsBlock (encRounds S (whiten S (blockWords d)) g.r (Nat.le_refl _))

/-- Acceptance of ENCRYPT (rules R55, R80 and R119). -/
def acceptEncrypt (len : Nat) (p : Payload g) (r : Regs g) : Regs g :=
  r.acceptWith 0x02 len fun r =>
    { r with
      A := (blockWords (blockOf p)).A
      B := (blockWords (blockOf p)).B
      phase := .encWhiten
      k := 0 }

/-- The working words (rule R36). -/
def Regs.words (r : Regs g) : WordPair g := { A := r.A, B := r.B }

/-- Step ENC_WHITEN (rule R120). -/
def encWhitenStep (r : Regs g) : Except Fault (Regs g) :=
  .ok { r with
    A := (whiten r.S r.words).A
    B := (whiten r.S r.words).B
    phase := if g.r = 0 then .xfFinish else .encRound
    k := if g.r = 0 then r.k else 1 }

/-- Step ENC_ROUND: round `k` (rule R121). -/
def encRoundStep (r : Regs g) : Except Fault (Regs g) :=
  if h : r.k ≤ g.r then
    .ok { r with
      A := (encRound r.S r.k h r.words).A
      B := (encRound r.S r.k h r.words).B
      phase := if r.k = g.r then .xfFinish else .encRound
      k := if r.k = g.r then 0 else r.k + 1 }
  else .error (.counterOutOfRange .encRound r.k)

/-- Step XF_FINISH, which ends ENCRYPT and DECRYPT (rule R122). -/
def xfFinishStep (r : Regs g) : Except Fault (Regs g) :=
  .ok (Regs.complete Status.ok.code (wordsBlock r.words) { r with A := 0, B := 0 })

end Sys2Proof.Machine
end

