-- ==== Sys2Proof/Machine/Decrypt.lean ====
section
/-! DEFINITION. The decryption engine (43_decrypt.md): `decrypt` (rule R125), and the acceptance and
engine steps of DECRYPT (rules R128 to R130; its last step is XF_FINISH, rule R122). -/

namespace Sys2Proof.Machine

variable {g : Config}

/-- Undoing of round `i`; the second line uses the `B` just written (rules R20 and R125; 90_conflicts
C4). -/
def decRound (S : Vector g.Word g.t) (i : Nat) (hi : i ≤ g.r) (p : WordPair g) : WordPair g :=
  have h := g.round_lt_t hi
  let b := rotrW (p.B - S[2 * i + 1]) p.A ^^^ p.A
  let a := rotrW (p.A - S[2 * i]) b ^^^ b
  { A := a, B := b }

/-- Undoing of the rounds `n` down to 1, in that order (rule R125). -/
def decRounds (S : Vector g.Word g.t) : (n : Nat) → n ≤ g.r → WordPair g → WordPair g
  | 0, _, p => p
  | n + 1, h, p => decRounds S n (Nat.le_of_succ_le h) (decRound S (n + 1) h p)

/-- Undoing of the whitening: `B <- B -w S[1]; A <- A -w S[0]` (rule R125). -/
def unwhiten (S : Vector g.Word g.t) (p : WordPair g) : WordPair g :=
  have h := g.one_lt_t
  { A := p.A - S[0], B := p.B - S[1] }

/-- `decrypt(d[0..2u), S)` (rule R125). -/
def decrypt (d : Vector Byte g.blockBytes) (S : Vector g.Word g.t) : Vector Byte g.blockBytes :=
  wordsBlock (unwhiten S (decRounds S g.r (Nat.le_refl _) (blockWords d)))

/-- Acceptance of DECRYPT (rules R55, R80 and R128). -/
def acceptDecrypt (len : Nat) (p : Payload g) (r : Regs g) : Regs g :=
  r.acceptWith 0x03 len fun r =>
    { r with
      A := (blockWords (blockOf p)).A
      B := (blockWords (blockOf p)).B
      phase := if 0 < g.r then .decRound else .decUnwhiten
      k := g.r }

/-- Step DEC_ROUND: undoing of round `k`, taken with `k = r, ..., 1` (rule R129). -/
def decRoundStep (r : Regs g) : Except Fault (Regs g) :=
  if h : 0 < r.k ∧ r.k ≤ g.r then
    .ok { r with
      A := (decRound r.S r.k h.2 r.words).A
      B := (decRound r.S r.k h.2 r.words).B
      phase := if r.k = 1 then .decUnwhiten else .decRound
      k := r.k - 1 }
  else .error (.counterOutOfRange .decRound r.k)

/-- Step DEC_UNWHITEN (rule R130). -/
def decUnwhitenStep (r : Regs g) : Except Fault (Regs g) :=
  .ok { r with
    A := (unwhiten r.S r.words).A
    B := (unwhiten r.S r.words).B
    phase := .xfFinish }

end Sys2Proof.Machine
end

