-- ==== Sys2Proof/Machine/KeySchedule.lean ====
section
/-! DEFINITION. The key-schedule engine (41_key_schedule.md): the three loops of `expand`
(rule R103), and the acceptance and engine steps of KEYSCHED (rules R109 to R113). -/

namespace Sys2Proof.Machine

variable {g : Config}

/-- Packing of key byte `j`: `L[j/u] <- rotl(L[j/u], 8) +w word_from_byte(key[j])` (rule R103). -/
def packByte (key : Vector Byte g.b) (L : Vector g.Word g.c) (j : Fin g.b) : Vector g.Word g.c :=
  have h := g.div_u_lt_c j.isLt
  L.set (j.val / g.u) (rotl L[j.val / g.u] 8 + wordFromByte g key[j])

/-- Packing of the key bytes `n - 1` down to 0, in that order (rule R103, step 1). -/
def packDown (key : Vector Byte g.b) : (n : Nat) → n ≤ g.b → Vector g.Word g.c → Vector g.Word g.c
  | 0, _, L => L
  | n + 1, h, L => packDown key n (Nat.le_of_succ_le h) (packByte key L ⟨n, h⟩)

/-- The key words of a key: `L` after step 1 of rule R103. -/
def packKey (key : Vector Byte g.b) : Vector g.Word g.c :=
  packDown key g.b (Nat.le_refl _) (Vector.replicate _ 0)

/-- Initialization of table word `k`: `P` for `k = 0`, else `S[k-1] +w Q` (rule R103). -/
def initWord (S : Vector g.Word g.t) (k : Fin g.t) : Vector g.Word g.t :=
  S.set k (if k.val = 0 then constP g else S[k.val - 1] + constQ g)

/-- The table after its first `n` words have been initialized, in rising order (rule R103,
step 2). -/
def initUp (S : Vector g.Word g.t) : (n : Nat) → n ≤ g.t → Vector g.Word g.t
  | 0, _ => S
  | n + 1, h => initWord (initUp S n (Nat.le_of_succ_le h)) ⟨n, h⟩

/-- The table after step 2 of rule R103. -/
def initTable (g : Config) : Vector g.Word g.t :=
  initUp (Vector.replicate _ 0) g.t (Nat.le_refl _)

/-- What the mixing loop reads and writes (rule R103, step 3). -/
structure Mix (g : Config) where
  S  : Vector g.Word g.t
  L  : Vector g.Word g.c
  A  : g.Word
  B  : g.Word
  si : Fin g.t
  li : Fin g.c
deriving DecidableEq, Repr

/-- One mixing iteration; the second line uses the `A` the first has just written (rules R20 and
R103). -/
def Mix.next (m : Mix g) : Mix g :=
  let a := rotl (m.S[m.si] + m.A + m.B) 3
  let l := rotlW (m.L[m.li] + a + m.B) (a + m.B)
  { S := m.S.set m.si a
    A := a
    L := m.L.set m.li l
    B := l
    si := ⟨(m.si.val + 1) % g.t, Nat.mod_lt _ g.t_pos⟩
    li := ⟨(m.li.val + 1) % g.c, Nat.mod_lt _ g.c_pos⟩ }

/-- `n` mixing iterations (rule R103, step 3). -/
def Mix.times (m : Mix g) : Nat → Mix g
  | 0 => m
  | n + 1 => (m.times n).next

/-- The start of the mixing loop for a key (rule R103, step 3). -/
def Mix.start (key : Vector Byte g.b) : Mix g :=
  { S := initTable g, L := packKey key, A := 0, B := 0, si := ⟨0, g.t_pos⟩, li := ⟨0, g.c_pos⟩ }

/-- `expand(key[0..b))` (rule R103). -/
def expand (key : Vector Byte g.b) : Vector g.Word g.t := ((Mix.start key).times g.nMix).S

/-- Acceptance of KEYSCHED (rules R55, R80 and R109). -/
def acceptKeysched (len : Nat) (p : Payload g) (r : Regs g) : Regs g :=
  r.acceptWith 0x01 len fun r =>
    { r with
      KEY := keyOf p
      L := Vector.replicate _ 0
      A := 0, B := 0
      si := ⟨0, g.t_pos⟩, li := ⟨0, g.c_pos⟩
      keyValid := false
      phase := if 0 < g.b then .ksPack else .ksInit
      k := g.b }

/-- Step KS_PACK: packing of key byte `k - 1` (rule R110). -/
def ksPackStep (r : Regs g) : Except Fault (Regs g) :=
  if h : 0 < r.k ∧ r.k ≤ g.b then
    .ok { r with
      L := packByte r.KEY r.L ⟨r.k - 1, by omega⟩
      phase := if r.k = 1 then .ksInit else .ksPack
      k := r.k - 1 }
  else .error (.counterOutOfRange .ksPack r.k)

/-- Step KS_INIT: initialization of table word `k` (rule R111). -/
def ksInitStep (r : Regs g) : Except Fault (Regs g) :=
  if h : r.k < g.t then
    .ok { r with
      S := initWord r.S ⟨r.k, h⟩
      phase := if r.k + 1 = g.t then .ksMix else .ksInit
      k := if r.k + 1 = g.t then 0 else r.k + 1 }
  else .error (.counterOutOfRange .ksInit r.k)

/-- The part of the state the mixing loop works on. -/
def Regs.mix (r : Regs g) : Mix g :=
  { S := r.S, L := r.L, A := r.A, B := r.B, si := r.si, li := r.li }

/-- Step KS_MIX: one mixing iteration (rule R112). -/
def ksMixStep (r : Regs g) : Except Fault (Regs g) :=
  let m := r.mix.next
  .ok { r with
    S := m.S, L := m.L, A := m.A, B := m.B, si := m.si, li := m.li
    phase := if r.k + 1 = g.nMix then .ksFinish else .ksMix
    k := if r.k + 1 = g.nMix then 0 else r.k + 1 }

/-- Step KS_FINISH (rule R113). -/
def ksFinishStep (r : Regs g) : Except Fault (Regs g) :=
  .ok (Regs.complete Status.ok.code (zeroBlock g) { r.eraseScratch with keyValid := true })

end Sys2Proof.Machine
end

