-- ==== Sys2Proof/Machine/Zeroize.lean ====
section
/-! DEFINITION. ZEROIZE and the reserved commands (44_zeroize_and_reserved.md). -/

namespace Sys2Proof.Machine

variable {g : Config}

/-- Acceptance of ZEROIZE, whose LEN and payload are ignored (rules R55, R80, R81 and R133). -/
def acceptZeroize (len : Nat) (_ : Payload g) (r : Regs g) : Regs g :=
  r.acceptWith 0x04 len fun r => { r with phase := .zz, k := 0 }

/-- Step ZZ (rule R134). -/
def zzStep (r : Regs g) : Except Fault (Regs g) :=
  .ok (Regs.complete Status.ok.code (zeroBlock g)
    { r.eraseScratch with S := Vector.replicate _ 0, keyValid := false })

/-- Acceptance of a command with a reserved opcode (rules R55, R83 and R135): the check of rule R140
never lets it pass, so it has no acceptance rule of its own. -/
def acceptReserved (h : BitVec 16) (_ : Payload g) (r : Regs g) : Regs g :=
  r.acceptWith (hdrOp h) (hdrLen h) id

end Sys2Proof.Machine
end

