-- ==== Sys2Proof/Machine/Engine.lean ====
section
/-! DEFINITION. The clock edge (rules R54 to R56), the steps left to a completion (rule R166), and a
whole command: the edges from its acceptance to the edge that leaves the core idle (rule R58). -/

namespace Sys2Proof.Machine

/-- One engine step: the one rule for the current phase, and nothing else (rule R56), read literally
in states no run reaches too (log entry 10). An idle core has none. -/
def Regs.engineStep {g : Config} (r : Regs g) : Except Fault (Regs g) :=
  match r.phase with
  | .idle => .ok r
  | .ksPack => ksPackStep r
  | .ksInit => ksInitStep r
  | .ksMix => ksMixStep r
  | .ksFinish => ksFinishStep r
  | .encWhiten => encWhitenStep r
  | .encRound => encRoundStep r
  | .decRound => decRoundStep r
  | .decUnwhiten => decUnwhitenStep r
  | .xfFinish => xfFinishStep r
  | .zz => zzStep r
  | .err => .ok r.errStep

/-- Acceptance of the command a header gives (rules R55 and R80). -/
def accept {g : Config} (h : BitVec 16) (p : Payload g) (r : Regs g) : Regs g :=
  match decode h with
  | .ok (.keysched n) => acceptKeysched n p r
  | .ok (.encrypt n) => acceptEncrypt n p r
  | .ok (.decrypt n) => acceptDecrypt n p r
  | .ok (.zeroize n) => acceptZeroize n p r
  | .error _ => acceptReserved h p r

/-- One rising edge of `clk` (rule R54), where `cmd` says what acceptance of the presented command
does (none: no command is presented). In this order: a reset edge; the refusal before the first
reset edge (rule R159); the acceptance edge or an idle edge; one engine step. The inputs of the
edge are used up. -/
def State.edgeWith (s : State) (cmd : Option (Payload s.cfg → Regs s.cfg → Regs s.cfg)) :
    Host.Outcome State Fault Refusal :=
  if s.now.rst then .next s.afterReset
  else if s.resetSeen = false then .refused .beforeFirstReset
  else if s.regs.phase = .idle then
    match cmd with
    | some acceptance =>
      .next { s with regs := acceptance s.now.payload s.regs, host := s.host.tail }
    | none => .next { s with host := s.host.tail }
  else
    match s.regs.engineStep with
    | .ok r => .next { s with regs := r, host := s.host.tail }
    | .error f => .fault f

/-- One rising edge of `clk` under the host's own inputs (rule R54). -/
def State.edge (s : State) : Host.Outcome State Fault Refusal :=
  s.edgeWith (if s.now.cmdValid then some (accept s.now.cmdHdr) else none)

/-- `n` clock edges (rule R170), stopping at a fault or a refusal. -/
def State.edges (s : State) : Nat → Host.Outcome State Fault Refusal
  | 0 => .next s
  | n + 1 =>
    match s.edge with
    | .next t => t.edges n
    | o => o

/-- The engine steps from here to the completion edge (rule R166). -/
def Regs.stepsLeft {g : Config} (r : Regs g) : Nat :=
  match r.phase with
  | .idle => 0
  | .ksPack => r.k + g.t + g.nMix + 1
  | .ksInit => (g.t - r.k) + g.nMix + 1
  | .ksMix => (g.nMix - r.k) + 1
  | .ksFinish => 1
  | .encWhiten => g.r + 2
  | .encRound => (g.r - r.k) + 2
  | .decRound => r.k + 2
  | .decUnwhiten => 2
  | .xfFinish => 1
  | .zz => 1
  | .err => 1

/-- Clock edges until the core is idle, at most `n` of them. -/
def State.untilIdle (s : State) : Nat → Host.Outcome State Fault Refusal
  | 0 => .next s
  | n + 1 =>
    if s.regs.phase = .idle then .next s
    else
      match s.edge with
      | .next t => t.untilIdle n
      | o => o

/-- One clock edge, and the edges after it up to the one that leaves the core idle: a completion
edge, or a reset edge that abandons the command (rules R58, R158 and R166). A core that is not
ready does not accept the presented command (rule R162): its edge is a reset edge or an engine
step (log entry 11). -/
def State.perform (s : State) (cmd : Option (Payload s.cfg → Regs s.cfg → Regs s.cfg)) :
    Host.Outcome State Fault Refusal :=
  match s.edgeWith cmd with
  | .next t => t.untilIdle t.regs.stepsLeft
  | o => o

end Sys2Proof.Machine
end

