-- ==== Sys2Proof/Machine/Commands.lean ====
section
/-! DEFINITION. The meaning of each command: presented at the next edge with the payload that stands
on `cmd_data` there, it is accepted if the core is ready, and the engine steps run to its
completion. -/

namespace Sys2Proof.Machine

/-- KEYSCHED (rules R102 and R109 to R113). -/
def execKeysched (len : Nat) (s : State) : Host.Outcome State Fault Refusal :=
  s.perform (some (acceptKeysched len))

/-- ENCRYPT (rules R115 and R119 to R122). -/
def execEncrypt (len : Nat) (s : State) : Host.Outcome State Fault Refusal :=
  s.perform (some (acceptEncrypt len))

/-- DECRYPT (rules R124, R128 to R130 and R122). -/
def execDecrypt (len : Nat) (s : State) : Host.Outcome State Fault Refusal :=
  s.perform (some (acceptDecrypt len))

/-- ZEROIZE (rules R132 to R134). -/
def execZeroize (len : Nat) (s : State) : Host.Outcome State Fault Refusal :=
  s.perform (some (acceptZeroize len))

/-- A command with a reserved opcode: accepted, and completed with ILLEGAL_COMMAND (rules R83 and
R135). -/
def execReserved (h : BitVec 16) (s : State) : Host.Outcome State Fault Refusal :=
  s.perform (some (acceptReserved h))

/-- An edge at which the host presents no command. -/
def execNothing (s : State) : Host.Outcome State Fault Refusal := s.perform none

end Sys2Proof.Machine
end

