-- ==== Sys2Proof/Machine/Step.lean ====
section
/-! DEFINITION. The step: the command the host presents at the next edge, or an edge without one. -/

namespace Sys2Proof.Machine

/-- One step of the machine: the next clock edge, with the command the host presents there, and the
edges after it until the core is idle (rules R54, R58 and R80; log entry 1). -/
def step (s : State) : Host.Outcome State Fault Refusal :=
  if s.now.cmdValid then
    match decode s.now.cmdHdr with
    | .ok i => exec i s
    | .error _ => execReserved s.now.cmdHdr s
  else execNothing s

/-- `s` with the command of an opcode-table word presented at the next edge, its payload zero, to a
core that is idle and has been reset: the very next step accepts it (log entry 9). -/
def State.withFetchWord (s : State) (nbits w : Nat) : State :=
  { s with
    regs := { s.regs with phase := .idle }
    resetSeen := true
    host := { rst := false, cmdValid := true, cmdHdr := tableHeader nbits w, cmdData := 0 } :: s.host }

end Sys2Proof.Machine
end

