-- ==== Sys2Proof/Machine/Run.lean ====
section
/-! DEFINITION. Runs of clock edges and what is observed of them (rule R170): the pairs of accepted
command and response in acceptance order, and when a run has ended. -/

namespace Sys2Proof.Machine

/-- A command as it was accepted (rules R55, R58 and R161): the header, and the bytes
`payload[0..LEN)` sampled with it. "Only `payload[0..LEN)` belong to the command" (rule R78); lanes
the bus does not carry have no byte. -/
structure AcceptedCommand where
  hdr   : BitVec 16
  bytes : List Byte
deriving DecidableEq, Repr

/-- One (accepted command, response) pair of a run's observation (rule R170). -/
structure Observation where
  command : AcceptedCommand
  status  : Byte
  data    : List Byte
deriving DecidableEq, Repr

/-- A run so far: the state its edges have reached, with the final `S` and `key_valid` in it, the
command in progress (accepted, and neither completed nor abandoned), and the pairs observed, in
acceptance order. -/
structure Progress where
  state    : State
  command  : Option AcceptedCommand
  observed : List Observation
deriving DecidableEq, Repr

/-- The command a header and a payload give. -/
def acceptedCommand {g : Config} (h : BitVec 16) (p : Payload g) : AcceptedCommand :=
  { hdr := h, bytes := p.toList.take (hdrLen h) }

/-- The command presented at the next edge, if there is one. -/
def State.presented (s : State) : Option AcceptedCommand :=
  if s.now.cmdValid then some (acceptedCommand s.now.cmdHdr s.now.payload) else none

/-- A command with the response that stands in a state. -/
def AcceptedCommand.answered (c : AcceptedCommand) (t : State) : Observation :=
  { command := c, status := t.regs.rspStatus, data := t.regs.rspData.toList }

/-- A run that has not begun to be observed. -/
def Progress.start (s : State) : Progress := { state := s, command := none, observed := [] }

/-- What one edge that leads to `t` adds to a run: a reset edge abandons the command in progress, and
"no response for it is ever written" (rule R158); an edge of an idle core accepts the presented
command; a completion edge gives the pair of the command in progress (rules R57 and R170). DEDUCED
(log entry 13). -/
def Progress.after (x : Progress) (t : State) : Progress :=
  if x.state.now.rst then { state := t, command := none, observed := x.observed }
  else if x.state.regs.phase = .idle then
    { state := t, command := x.state.presented, observed := x.observed }
  else if t.regs.phase = .idle then
    { state := t, command := none
      observed := x.observed ++ (x.command.map fun c => c.answered t).toList }
  else { state := t, command := x.command, observed := x.observed }

/-- One clock edge of a run. -/
def Progress.edge (x : Progress) : Host.Outcome Progress Fault Refusal :=
  match x.state.edge with
  | .next t => .next (x.after t)
  | .fault f => .fault f
  | .refused q => .refused q

/-- `n` clock edges of a run. -/
def Progress.edges (x : Progress) : Nat → Host.Outcome Progress Fault Refusal
  | 0 => .next x
  | n + 1 =>
    match x.edge with
    | .next y => y.edges n
    | o => o

/-- A run is "a finite sequence of clock edges starting with a reset edge, with the host's inputs at
each edge" (rule R170): here the inputs are those of the state's host. -/
abbrev State.StartsRun (s : State) : Prop := s.now.rst = true

/-- The run of all the inputs the host has (rule R170). -/
def State.run (s : State) : Host.Outcome Progress Fault Refusal :=
  (Progress.start s).edges s.host.length

/-- A run has ended when its last edge leaves `phase = IDLE` "and the host presents no further
command"; "A run whose last edge leaves `phase /= IDLE` has not ended" (rule R170). DEDUCED: no edge the host
has left presents a command (log entry 13). -/
abbrev Progress.Ended (x : Progress) : Prop :=
  x.state.regs.phase = .idle ∧ ∀ e ∈ x.state.host, e.cmdValid = false

end Sys2Proof.Machine
end

