-- ==== Sys2Proof/Machine/Host.lean ====
section
/-! DEFINITION. The lines of the notation of rule R86 as data, and the host that runs a program of them
(rules R169 and R170; log entry 8). The text of a line is in Machine/Text.lean. -/

namespace Sys2Proof.Machine

/-- One line of a program (rule R86); `bytes` is the `<hex>` of the line, byte 0 first. -/
inductive HostLine where
  | keysched (bytes : List Byte)
  | encrypt (bytes : List Byte)
  | decrypt (bytes : List Byte)
  | zeroize
  | cmd (op len : Nat) (bytes : List Byte)
  | reset
deriving DecidableEq, Repr

/-- A line has a header when its opcode and its length fit 8 bits each (rule R77). -/
def HostLine.wellFormed : HostLine → Bool
  | .keysched bs => decide (bs.length < 256)
  | .encrypt bs => decide (bs.length < 256)
  | .decrypt bs => decide (bs.length < 256)
  | .zeroize => true
  | .cmd op len _ => decide (op < 256) && decide (len < 256)
  | .reset => true

/-- A command on the ports: byte `j` of `bytes` on lane `j`, bytes beyond the `dmax` lanes not carried
(rule R78; log entry 8). Lanes past the bytes given hold 0x00: rule R86 says so of a CMD line, and for
the other lines it is the model's choice (U8; log entry 8). -/
def presentCommand (g : Config) (h : BitVec 16) (bytes : List Byte) : HostEdge g :=
  { rst := false, cmdValid := true, cmdHdr := h, cmdData := BitVec.ofNat _ (leSum bytes) }

/-- The inputs a line puts on the ports (rule R86). -/
def HostLine.assemble (g : Config) : HostLine → HostEdge g
  | .keysched bs => presentCommand g (encode (.keysched bs.length)) bs
  | .encrypt bs => presentCommand g (encode (.encrypt bs.length)) bs
  | .decrypt bs => presentCommand g (encode (.decrypt bs.length)) bs
  | .zeroize => presentCommand g (encode (.zeroize 0)) []
  | .cmd op len bs => presentCommand g (BitVec.ofNat 8 len ++ BitVec.ofNat 8 op) bs
  | .reset => { HostEdge.quiet g with rst := true }

/-- The edges at which the host holds a line on the ports: one for RESET; a command is held "until
accepted" (rules R86 and R162), which on a busy core is the edge after its last engine step. -/
def HostLine.held (l : HostLine) (s : State) : Nat :=
  match l with
  | .reset => 1
  | .keysched _ | .encrypt _ | .decrypt _ | .zeroize | .cmd _ _ _ => s.regs.stepsLeft + 1

/-- `s` with a host that holds a line on the ports until it is taken and is then quiet. -/
def State.withLine (s : State) (l : HostLine) : State :=
  { s with host := List.replicate (l.held s) (l.assemble s.cfg) }

/-- The host presents a line until it is taken and waits for RSP_VALID (rules R86 and R169): the
edges at which the line is held, and the engine steps from there to the completion edge. -/
def runLine (l : HostLine) (x : Progress) : Host.Outcome Progress Fault Refusal :=
  match Progress.edges { x with state := x.state.withLine l } (l.held x.state) with
  | .next y => y.edges y.state.regs.stepsLeft
  | o => o

/-- A program: its lines in order, each when the one before it has been answered (rules R86 and
R170). -/
def runProgram : List HostLine → Progress → Host.Outcome Progress Fault Refusal
  | [], x => .next x
  | l :: ls, x =>
    match runLine l x with
    | .next y => runProgram ls y
    | o => o

end Sys2Proof.Machine
end

