-- ==== Sys2Proof/Machine/Text.lean ====
section
/-! DEFINITION. The text of the notation of rule R86: reading a line, writing a line, and writing a
result. Texts are lists of characters. -/

namespace Sys2Proof.Machine

/-- The value of a hexadecimal digit, in upper or lower case. -/
def hexDigit (c : Char) : Option Nat :=
  if 48 ≤ c.toNat ∧ c.toNat ≤ 57 then some (c.toNat - 48)
  else if 65 ≤ c.toNat ∧ c.toNat ≤ 70 then some (c.toNat - 55)
  else if 97 ≤ c.toNat ∧ c.toNat ≤ 102 then some (c.toNat - 87)
  else none

/-- The hexadecimal digit of a value below 16, in upper case. -/
def hexChar (n : Nat) : Char := if n < 10 then Char.ofNat (48 + n) else Char.ofNat (55 + n)

/-- The byte of a digit pair. -/
def hexByte (a b : Char) : Option Byte :=
  match hexDigit a, hexDigit b with
  | some x, some y => some (BitVec.ofNat 8 (16 * x + y))
  | _, _ => none

/-- "A string of hexadecimal digit pairs, the first pair being payload byte 0" (rule R86). -/
def hexBytes : List Char → Option (List Byte)
  | [] => some []
  | [_] => none
  | a :: b :: cs =>
    match hexByte a b, hexBytes cs with
    | some x, some xs => some (x :: xs)
    | _, _ => none

/-- The field `<hex>`, where `-` is the empty string (rule R86). -/
def readHex (t : List Char) : Option (List Byte) :=
  if t = ['-'] then some [] else if t = [] then none else hexBytes t

/-- The digit pair of a byte. -/
def byteText (x : Byte) : List Char := [hexChar (x.toNat / 16), hexChar (x.toNat % 16)]

/-- The field `<hex>` of some bytes. -/
def hexText (bs : List Byte) : List Char := if bs = [] then ['-'] else bs.flatMap byteText

/-- The value of a decimal digit. -/
def decDigit (c : Char) : Option Nat :=
  if 48 ≤ c.toNat ∧ c.toNat ≤ 57 then some (c.toNat - 48) else none

/-- The decimal number of some digits, the digits already read being worth `acc`. -/
def readDigits (acc : Nat) : List Char → Option Nat
  | [] => some acc
  | c :: cs =>
    match decDigit c with
    | some d => readDigits (10 * acc + d) cs
    | none => none

/-- The field `N` of a CMD line, "`N` (0..255)" (rule R86). -/
def readLen (t : List Char) : Option Nat := if t = [] then none else readDigits 0 t

/-- The decimal digits of a number below 256, without leading zeros. -/
def lenText (n : Nat) : List Char :=
  if n < 10 then [hexChar n]
  else if n < 100 then [hexChar (n / 10), hexChar (n % 10)]
  else [hexChar (n / 100), hexChar (n / 10 % 10), hexChar (n % 10)]

/-- The words of a line, which single spaces separate. -/
def splitSpaces : List Char → List (List Char)
  | [] => [[]]
  | c :: cs =>
    if c = ' ' then [] :: splitSpaces cs
    else
      match splitSpaces cs with
      | [] => [[c]]
      | w :: ws => (c :: w) :: ws

/-- What follows `p` at the start of `t`. -/
def afterPrefix : (p t : List Char) → Option (List Char)
  | [], t => some t
  | _ :: _, [] => none
  | x :: p, y :: t => if x = y then afterPrefix p t else none

/-- The mnemonics of the notation (rule R86). -/
def kwKeysched : List Char := ['K', 'E', 'Y', 'S', 'C', 'H', 'E', 'D']
def kwEncrypt : List Char := ['E', 'N', 'C', 'R', 'Y', 'P', 'T']
def kwDecrypt : List Char := ['D', 'E', 'C', 'R', 'Y', 'P', 'T']
def kwZeroize : List Char := ['Z', 'E', 'R', 'O', 'I', 'Z', 'E']
def kwCmd : List Char := ['C', 'M', 'D']
def kwReset : List Char := ['R', 'E', 'S', 'E', 'T']

/-- `op=0x` and `len=`, the labels of a CMD line (rule R86). -/
def kwOp : List Char := ['o', 'p', '=', '0', 'x']
def kwLen : List Char := ['l', 'e', 'n', '=']

/-- The opcode field of a CMD line: two hexadecimal digits after `op=0x`. -/
def readOp (t : List Char) : Option Nat :=
  match afterPrefix kwOp t with
  | some [a, b] => (hexByte a b).map BitVec.toNat
  | _ => none

/-- The line a text stands for, before its lengths are checked (rule R86). -/
def readWords : List (List Char) → Option HostLine
  | [m] =>
    if m = kwZeroize then some .zeroize
    else if m = kwReset then some .reset
    else none
  | [m, x] =>
    match readHex x with
    | some bs =>
      if m = kwKeysched then some (.keysched bs)
      else if m = kwEncrypt then some (.encrypt bs)
      else if m = kwDecrypt then some (.decrypt bs)
      else none
    | none => none
  | [m, o, n, x] =>
    if m = kwCmd then
      match readOp o, (afterPrefix kwLen n).bind readLen, readHex x with
      | some op, some len, some bs => some (.cmd op len bs)
      | _, _, _ => none
    else none
  | _ => none

/-- The line a text stands for; none where it is no line of rule R86 or where its length does not fit
the header (rule R77). -/
def HostLine.read (t : List Char) : Option HostLine :=
  match readWords (splitSpaces t) with
  | some l => if l.wellFormed then some l else none
  | none => none

/-- The text of a line (rule R86). -/
def HostLine.text : HostLine → List Char
  | .keysched bs => kwKeysched ++ ' ' :: hexText bs
  | .encrypt bs => kwEncrypt ++ ' ' :: hexText bs
  | .decrypt bs => kwDecrypt ++ ' ' :: hexText bs
  | .zeroize => kwZeroize
  | .cmd op len bs =>
    kwCmd ++ ' ' :: (kwOp ++ byteText (BitVec.ofNat 8 op) ++
      ' ' :: (kwLen ++ lenText len ++ ' ' :: hexText bs))
  | .reset => kwReset

/-- The name of a status (rule R82); a code that is never produced has none. -/
def statusName (code : Byte) : Option (List Char) :=
  if code = 0x00 then some ['O', 'K']
  else if code = 0x01 then
    some ['K', 'E', 'Y', '_', 'L', 'E', 'N', 'G', 'T', 'H', '_', 'M', 'I', 'S', 'M', 'A', 'T', 'C', 'H']
  else if code = 0x02 then
    some ['B', 'L', 'O', 'C', 'K', '_', 'L', 'E', 'N', 'G', 'T', 'H', '_', 'M', 'I', 'S', 'M', 'A', 'T',
      'C', 'H']
  else if code = 0x03 then
    some ['I', 'L', 'L', 'E', 'G', 'A', 'L', '_', 'C', 'O', 'M', 'M', 'A', 'N', 'D']
  else if code = 0x04 then some ['N', 'O', '_', 'K', 'E', 'Y']
  else none

/-- The result `=> <STATUS> <hex>`: the bytes for a successful ENCRYPT or DECRYPT, "written in full
even when every byte is zero, and `-` for every other completion" (rule R86). -/
def Observation.text (o : Observation) : Option (List Char) :=
  (statusName o.status).map fun name =>
    ['=', '>', ' '] ++ name ++ ' ' ::
      (if o.status = 0 ∧ (hdrOp o.command.hdr = 0x02 ∨ hdrOp o.command.hdr = 0x03) then o.data.flatMap byteText
       else ['-'])

end Sys2Proof.Machine
end

