-- ==== Sys2Proof/Machine/Transaction.lean ====
section
/-! DEFINITION. The transaction view of the commands (rule R58): the response and the table after
completion as a function of the command and of `S` and `key_valid` at acceptance, written from the
transaction-level pseudocode of rules R102, R115, R124, R132 and R135. The machine does not use it:
claims compare the engine with it. -/

namespace Sys2Proof.Machine

variable {g : Config}

/-- What a command leaves: the table, `key_valid`, and the response (rule R58). -/
structure Result (g : Config) where
  S        : Vector g.Word g.t
  keyValid : Bool
  status   : Status
  data     : Vector Byte g.blockBytes
deriving DecidableEq, Repr

/-- A rejected command: "response (st, 2u zero bytes); no other state changes". -/
def rejectedResult (st : Status) (S : Vector g.Word g.t) (kv : Bool) : Result g :=
  { S := S, keyValid := kv, status := st, data := zeroBlock g }

/-- KEYSCHED (rule R102). -/
def keyschedResult (len : Nat) (p : Payload g) (S : Vector g.Word g.t) (kv : Bool) : Result g :=
  let st := check g 0x01 len kv
  if st ≠ .ok then rejectedResult st S kv
  else { S := expand (keyOf p), keyValid := true, status := .ok, data := zeroBlock g }

/-- ENCRYPT (rule R115). -/
def encryptResult (len : Nat) (p : Payload g) (S : Vector g.Word g.t) (kv : Bool) : Result g :=
  let st := check g 0x02 len kv
  if st ≠ .ok then rejectedResult st S kv
  else { S := S, keyValid := kv, status := .ok, data := encrypt (blockOf p) S }

/-- DECRYPT (rule R124). -/
def decryptResult (len : Nat) (p : Payload g) (S : Vector g.Word g.t) (kv : Bool) : Result g :=
  let st := check g 0x03 len kv
  if st ≠ .ok then rejectedResult st S kv
  else { S := S, keyValid := kv, status := .ok, data := decrypt (blockOf p) S }

/-- ZEROIZE (rule R132). -/
def zeroizeResult (g : Config) : Result g :=
  { S := Vector.replicate _ 0, keyValid := false, status := .ok, data := zeroBlock g }

/-- A reserved command (rule R135). -/
def reservedResult (S : Vector g.Word g.t) (kv : Bool) : Result g :=
  rejectedResult .illegalCommand S kv

/-- The command a header gives (rules R58 and R80). -/
def commandResult (h : BitVec 16) (p : Payload g) (S : Vector g.Word g.t) (kv : Bool) : Result g :=
  match decode h with
  | .ok (.keysched n) => keyschedResult n p S kv
  | .ok (.encrypt n) => encryptResult n p S kv
  | .ok (.decrypt n) => decryptResult n p S kv
  | .ok (.zeroize _) => zeroizeResult g
  | .error _ => reservedResult S kv

/-- The state elements after the completion edge: the response stands, and all working state is zero
(rules R53 and R57). -/
def Result.settled (x : Result g) : Regs g :=
  { Regs.reset g with
    S := x.S
    keyValid := x.keyValid
    rspValid := true
    rspStatus := x.status.code
    rspData := x.data }

/-- The engine steps from the acceptance edge to the completion edge (rule R166). -/
def latency (g : Config) (op : Byte) (len : Nat) (kv : Bool) : Nat :=
  if check g op len kv ≠ .ok then 1
  else if op = 0x01 then g.b + g.t + g.nMix + 1
  else if op = 0x02 ∨ op = 0x03 then g.r + 2
  else 1

end Sys2Proof.Machine
end

