-- ==== Sys2Proof/Safety.lean ====
section
/-! DEFINITION. What a legal state of the core is: the ranges of the step counter (rule R34), the
invariant of rule R53 and the companions it needs in the other phases, and what the table holds
(rule R40); and when a command completes without a reset edge. -/

namespace Sys2Proof.Machine

variable {g : Config}

/-- `L`, `KEY`, `si` and `li` are zero. -/
abbrev Regs.KeyScratchZero (r : Regs g) : Prop :=
  r.L = Vector.replicate _ 0 ∧ r.KEY = Vector.replicate _ 0 ∧ r.si.val = 0 ∧ r.li.val = 0

/-- `L`, `KEY`, `A`, `B`, `si`, `li`, `k` and `errc` are zero (rule R53). -/
abbrev Regs.ScratchZero (r : Regs g) : Prop :=
  r.KeyScratchZero ∧ r.A = 0 ∧ r.B = 0 ∧ r.k = 0 ∧ r.errc = 0

/-- The range of `k` in each phase (rule R34). -/
abbrev Regs.CounterOk (r : Regs g) : Prop :=
  match r.phase with
  | .ksPack => 0 < r.k ∧ r.k ≤ g.b
  | .ksInit => r.k < g.t
  | .ksMix => r.k < g.nMix
  | .encRound => 0 < r.k ∧ r.k ≤ g.r
  | .decRound => 0 < r.k ∧ r.k ≤ g.r
  | _ => r.k = 0

/-- What a phase says of the working state: zero when idle (rule R53), untouched by a rejected
command (rule R146), and outside a key schedule `L`, `KEY`, `si` and `li` zero (rules R38 and
R39). -/
abbrev Regs.WorkingOk (r : Regs g) : Prop :=
  match r.phase with
  | .idle => r.ScratchZero
  | .ksPack => r.A = 0 ∧ r.B = 0 ∧ r.si.val = 0 ∧ r.li.val = 0
  | .ksInit => r.A = 0 ∧ r.B = 0 ∧ r.si.val = 0 ∧ r.li.val = 0
  | .ksMix => True
  | .ksFinish => True
  | .zz => r.KeyScratchZero ∧ r.A = 0 ∧ r.B = 0
  | .err => r.KeyScratchZero ∧ r.A = 0 ∧ r.B = 0
  | _ => r.KeyScratchZero

/-- What the response registers may hold (rules R42, R43, R49 and R145): none while busy or before a
response, and zero data with every error status. -/
abbrev Regs.ResponseOk (r : Regs g) : Prop :=
  (r.phase ≠ .idle → r.rspValid = false) ∧
  (r.rspValid = false → r.rspStatus = 0 ∧ r.rspData = zeroBlock g) ∧
  (r.rspStatus ≠ 0 → r.rspData = zeroBlock g) ∧
  r.rspStatus.toNat ≤ 4

/-- `errc` holds the code of a rejected command between its acceptance and its completion, and 0
otherwise (rule R44). -/
abbrev Regs.ErrcOk (r : Regs g) : Prop :=
  (r.phase = .err → 1 ≤ r.errc.toNat ∧ r.errc.toNat ≤ 4) ∧ (r.phase ≠ .err → r.errc = 0)

/-- `key_valid` is 0 during a key schedule and 1 during a block transform (rules R40 and R140). -/
abbrev Regs.KeyFlagOk (r : Regs g) : Prop :=
  match r.phase with
  | .ksPack | .ksInit | .ksMix | .ksFinish => r.keyValid = false
  | .encWhiten | .encRound | .decRound | .decUnwhiten | .xfFinish => r.keyValid = true
  | _ => True

/-- The legal states of the core, edge by edge. -/
abbrev Regs.Legal (r : Regs g) : Prop :=
  r.CounterOk ∧ r.WorkingOk ∧ r.ResponseOk ∧ r.ErrcOk ∧ r.KeyFlagOk

/-- What `S`, `L` and `KEY` hold (rules R40 and R114): during a key schedule the part of `expand`
done so far; otherwise, while `key_valid` is 1, "the complete result of the last KEYSCHED", and
while it is 0, an erased table. -/
def Regs.TableOk (r : Regs g) : Prop :=
  match r.phase with
  | .ksPack => ∃ h : r.k ≤ g.b, packDown r.KEY r.k h r.L = packKey r.KEY
  | .ksInit => r.L = packKey r.KEY ∧
      ∃ (h : r.k ≤ g.t) (S₀ : Vector g.Word g.t), r.S = initUp S₀ r.k h
  | .ksMix => r.mix = (Mix.start r.KEY).times r.k
  | .ksFinish => r.S = expand r.KEY
  | _ => (r.keyValid = true → ∃ key : Vector Byte g.b, r.S = expand key) ∧
      (r.keyValid = false → r.S = Vector.replicate _ 0)

/-- A state is legal when the registers are, once a reset edge has happened: before it "the value of
every state element is unspecified" (rule R159). -/
abbrev State.Legal (s : State) : Prop := s.resetSeen = true → s.regs.Legal

/-- The table of a state, once a reset edge has happened. -/
def State.TableOk (s : State) : Prop := s.resetSeen = true → s.regs.TableOk

/-- The core is ready: a reset edge has happened, it is idle, and the next edge is no reset edge
(rules R29 and R159). -/
abbrev State.Ready (s : State) : Prop :=
  s.resetSeen = true ∧ s.regs.phase = .idle ∧ s.now.rst = false

/-- None of the next `n` edges is a reset edge (rule R158). -/
abbrev State.NoReset (s : State) (n : Nat) : Prop := ∀ e ∈ s.host.take n, e.rst = false

/-- The payload on `cmd_data` at the next edge. -/
abbrev State.payload (s : State) : Payload s.cfg := s.now.payload

/-- What the sequencer and the status word are made of: everything but the data a key, a block or the
table gives (rule R167). -/
abbrev Regs.control (r : Regs g) : Phase × Nat × Bool × Bool × Byte × Byte :=
  (r.phase, r.k, r.keyValid, r.rspValid, r.rspStatus, r.errc)

/-- The inputs of an edge but for the payload (rule R167). -/
abbrev HostEdge.control (e : HostEdge g) : Bool × Bool × BitVec 16 := (e.rst, e.cmdValid, e.cmdHdr)

/-- The status word an outcome shows, or why there is none. -/
def stsOf : Host.Outcome State Fault Refusal → Host.Outcome (Option (BitVec 16)) Fault Refusal
  | .next t => .next t.sts
  | .fault f => .fault f
  | .refused q => .refused q

/-- `s` after a whole command: `n` engine steps after the acceptance edge, with these registers. -/
def State.settle (s : State) (x : Result s.cfg) (n : Nat) : State :=
  { s with regs := x.settled, host := s.host.drop (n + 1) }

end Sys2Proof.Machine
end

