-- ==== Sys2Proof/Certificates/Slice0/Obligations.lean ====
section
/-! DEFINITION. The statements about the model. "Every state" means every instance (w, r, b), every
value of the registers and every sequence of host inputs. -/

open Sys2Proof Sys2Proof.Machine

/-! ## Parameters and word arithmetic -/

/-- The ranges of the derived parameters (rules R9 to R13). -/
def Obligations.DerivedParametersInRange : Prop :=
  ∀ g : Config,
    (g.w = 16 ∨ g.w = 32 ∨ g.w = 64) ∧ g.r ≤ 255 ∧ g.b ≤ 255 ∧
    8 * g.u = g.w ∧
    (g.t = 2 * (g.r + 1) ∧ 2 ≤ g.t ∧ g.t ≤ 512) ∧
    (g.b = 0 → g.c = 1) ∧ (0 < g.b → (g.c - 1) * g.u < g.b ∧ g.b ≤ g.c * g.u) ∧
    (1 ≤ g.c ∧ g.c * g.w ≤ 2048) ∧
    (g.nMix = 3 * max g.t g.c ∧ 6 ≤ g.nMix ∧ g.nMix ≤ 1536) ∧
    2 ^ g.lgw = g.w

/-- Rule R91: rotation left by a natural or by a word, as the rule defines it, and bit by bit. -/
def Obligations.RotateLeftFollowsRule : Prop :=
  ∀ (g : Config) (x : g.Word) (n : Nat),
    (rotl x n).toNat =
      (if n % g.w = 0 then x.toNat
       else (x.toNat * 2 ^ (n % g.w)) % 2 ^ g.w + x.toNat / 2 ^ (g.w - n % g.w)) ∧
    (∀ i : Nat, i < g.w → (rotl x n).getLsbD ((i + n % g.w) % g.w) = x.getLsbD i) ∧
    (∀ y : g.Word, rotlW x y = rotl x y.toNat)

/-- Rule R92: rotation right by a natural or by a word, as the rule defines it, and bit by bit. -/
def Obligations.RotateRightFollowsRule : Prop :=
  ∀ (g : Config) (x : g.Word) (n : Nat),
    (rotr x n).toNat =
      (if n % g.w = 0 then x.toNat
       else x.toNat / 2 ^ (n % g.w) + (x.toNat * 2 ^ (g.w - n % g.w)) % 2 ^ g.w) ∧
    (∀ i : Nat, i < g.w → (rotr x n).getLsbD i = x.getLsbD ((i + n % g.w) % g.w)) ∧
    (∀ y : g.Word, rotrW x y = rotr x y.toNat)

/-- Rule R93: the amount a word gives is its value modulo `w`, and below `w`. -/
def Obligations.RotationAmountIsLowBits : Prop :=
  ∀ (g : Config) (n : g.Word), rotAmount n = n.toNat % g.w ∧ rotAmount n < g.w

/-- Rule R94: the laws the inverse law of the cipher rests on. -/
def Obligations.WordLawsInvert : Prop :=
  ∀ (g : Config) (x y : g.Word) (n : Nat),
    rotr (rotl x n) n = x ∧ rotl (rotr x n) n = x ∧ (x + y) - y = x ∧ (x ^^^ y) ^^^ y = x ∧
    rotl x n = rotl x (n % g.w)

/-- Rules R96 and R97: the codec is the sum of the bytes by their weights, and the two directions
undo each other. -/
def Obligations.WordCodecRoundTrips : Prop :=
  ∀ (g : Config) (x : g.Word) (d : Vector Byte g.u),
    (leDecode d).toNat = ∑ j : Fin g.u, d[j].toNat * 2 ^ (8 * j.val) ∧
    (∀ j : Fin g.u, (leEncode x)[j] = x.extractLsb' (8 * j.val) 8) ∧
    leDecode (leEncode x) = x ∧ leEncode (leDecode d) = d

/-- Rule R100: `P` and `Q` are the odd integers nearest to `(e - 2) * 2^w` and `(φ - 1) * 2^w`. The
values for w = 16 and w = 64 are the spec's own, from general knowledge (log entry 6). -/
def Obligations.ConstantsAreNearestOdd : Prop :=
  ∀ g : Config,
    ((constP g).toNat % 2 = 1 ∧
      |((constP g).toNat : ℝ) - (Real.exp 1 - 2) * 2 ^ g.w| < 1) ∧
    ((constQ g).toNat % 2 = 1 ∧
      |((constQ g).toNat : ℝ) - (Real.goldenRatio - 1) * 2 ^ g.w| < 1)

/-! ## Encoding -/

/-- Decoding an encoded command gives it back with every LEN, and every header that decodes is the
encoding of the command it decodes to. -/
def Obligations.DecodeEncodeAgree : Prop :=
  (∀ i : Instr, i.wellFormed = true → decode (encode i) = .ok i) ∧
  (∀ (h : BitVec 16) (i : Instr), decode h = .ok i → i.wellFormed = true ∧ encode i = h)

/-- Rules R79 and R83: the decoder refuses exactly the reserved opcodes. -/
def Obligations.DecoderRefusesExactlyReserved : Prop :=
  ∀ h : BitVec 16,
    (decode h = .error (.reservedOpcode (hdrOp h)) ↔
      ((hdrOp h).toNat = 0 ∨ 5 ≤ (hdrOp h).toNat)) ∧
    ((∃ i, decode h = .ok i) ↔ (1 ≤ (hdrOp h).toNat ∧ (hdrOp h).toNat ≤ 4))

/-- Headers written out by hand from rules R77, R79 and R86 decode to their commands. -/
def Obligations.WrittenHeadersDecode : Prop :=
  decode 0b0001000000000001 = .ok (.keysched 16) ∧
  decode 0b0000100000000010 = .ok (.encrypt 8) ∧
  decode 0b0000100000000011 = .ok (.decrypt 8) ∧
  decode 0b0000011100000100 = .ok (.zeroize 7) ∧
  decode 0b0000000000000000 = .error (.reservedOpcode 0)

/-- Rule R140: which status `check` gives, and when (an illegal opcode hides every length, and a
length error hides NO_KEY); and that every acceptance takes the error path exactly when the check of
the sampled header under the current `key_valid` fails, with its code in `errc`. -/
def Obligations.CheckGivesFirstCause : Prop :=
  (∀ (g : Config) (h : BitVec 16) (p : Payload g) (r : Regs g),
    ((accept h p r).phase = .err ↔ check g (hdrOp h) (hdrLen h) r.keyValid ≠ .ok) ∧
    ((accept h p r).phase = .err →
      (accept h p r).errc = (check g (hdrOp h) (hdrLen h) r.keyValid).code)) ∧
  ∀ (g : Config) (op : Byte) (len : Nat) (kv : Bool),
    (check g op len kv = .illegalCommand ↔ (op.toNat = 0 ∨ 5 ≤ op.toNat)) ∧
    (check g op len kv = .keyLengthMismatch ↔ (op.toNat = 1 ∧ len ≠ g.b)) ∧
    (check g op len kv = .blockLengthMismatch ↔
      ((op.toNat = 2 ∨ op.toNat = 3) ∧ len ≠ 2 * g.u)) ∧
    (check g op len kv = .noKey ↔
      ((op.toNat = 2 ∨ op.toNat = 3) ∧ len = 2 * g.u ∧ kv = false)) ∧
    (check g op len kv = .ok ↔
      ((op.toNat = 1 ∧ len = g.b) ∨
       ((op.toNat = 2 ∨ op.toNat = 3) ∧ len = 2 * g.u ∧ kv = true) ∨ op.toNat = 4))

/-- Rule R78: a LEN beyond the bus never passes the check of a command that reads its payload. -/
def Obligations.OverlongLengthsAreRejected : Prop :=
  ∀ (g : Config) (op : Byte) (len : Nat) (kv : Bool),
    g.dmax < len → op.toNat ≠ 4 → check g op len kv ≠ .ok

/-- Rule R78: bytes at indices LEN and above are ignored, whatever the command. -/
def Obligations.PayloadBeyondLenIsIgnored : Prop :=
  ∀ (g : Config) (h : BitVec 16) (p q : Payload g) (r : Regs g),
    (∀ (j : Nat) (hj : j < g.dmax), j < hdrLen h → p[j] = q[j]) → accept h p r = accept h q r

/-- Rule R86: what each line puts on the ports. A command line presents its opcode, its length and its
bytes without a reset; a CMD line has its own opcode and length, and its missing bytes are 0x00;
ZEROIZE has length 0; RESET is `rst = 1` at one edge and `rst = 0` after it. The bytes stand on the
`dmax` lanes the bus has (rule R78). What the lanes past the bytes of the other lines hold is not said
here (log entry 8). -/
def Obligations.LinesAssembleToHeaderAndPayload : Prop :=
  ∀ g : Config,
    (∀ (l : HostLine) (bs : List Byte) (op : Byte), bs.length < 256 →
      (l = .keysched bs ∧ op = 1 ∨ l = .encrypt bs ∧ op = 2 ∨ l = .decrypt bs ∧ op = 3) →
        (l.assemble g).cmdValid = true ∧ (l.assemble g).rst = false ∧
        hdrOp (l.assemble g).cmdHdr = op ∧ hdrLen (l.assemble g).cmdHdr = bs.length ∧
        ∀ (j : Nat) (hj : j < g.dmax) (hb : j < bs.length), (l.assemble g).payload[j] = bs[j]) ∧
    ((HostLine.assemble g .zeroize).cmdValid = true ∧ (HostLine.assemble g .zeroize).rst = false ∧
      hdrOp (HostLine.assemble g .zeroize).cmdHdr = 4 ∧
      hdrLen (HostLine.assemble g .zeroize).cmdHdr = 0) ∧
    (∀ (op len : Nat) (bs : List Byte), op < 256 → len < 256 →
      (HostLine.assemble g (.cmd op len bs)).cmdValid = true ∧
      (HostLine.assemble g (.cmd op len bs)).rst = false ∧
      (hdrOp (HostLine.assemble g (.cmd op len bs)).cmdHdr).toNat = op ∧
      hdrLen (HostLine.assemble g (.cmd op len bs)).cmdHdr = len ∧
      ∀ (j : Nat) (hj : j < g.dmax),
        (HostLine.assemble g (.cmd op len bs)).payload[j] = bs.getD j 0) ∧
    (∀ (r : Regs g) (seen : Bool) (h : List (HostEdge g)),
      let s : State := { cfg := g, regs := r, resetSeen := seen, host := h }
      (s.withLine .reset).now.rst = true ∧
      State.now { s with host := (s.withLine .reset).host.tail } = HostEdge.quiet g)

/-- Rule R86: reading the text of a line gives the line, for every line whose lengths fit the
header. -/
def Obligations.LineTextReadsBack : Prop :=
  ∀ l : HostLine, l.wellFormed = true → HostLine.read l.text = some l

/-! ## The key schedule and the block transforms as functions -/

/-- Rule R64: packing is little-endian, with bytes at indices `b` and above read as 0x00. -/
def Obligations.KeyPackingIsLittleEndian : Prop :=
  ∀ (g : Config) (key : Vector Byte g.b) (i : Fin g.c),
    (packKey key)[i] = leDecode (Vector.ofFn fun j : Fin g.u =>
      if h : i.val * g.u + j.val < g.b then key[i.val * g.u + j.val] else 0)

/-- Rules R103 and R107: step 2 gives `P`, then adds `Q` word by word, whatever the table held
before. -/
def Obligations.TableInitializationIgnoresOldTable : Prop :=
  ∀ (g : Config) (S₀ : Vector g.Word g.t) (i : Fin g.t),
    (initUp S₀ g.t (Nat.le_refl _))[i] = constP g + BitVec.ofNat g.w i.val * constQ g

/-- Rule R105: the empty key has one key word, 0, and a key of at most `u` zero bytes gives the key
words and the table of the empty key. -/
def Obligations.ShortZeroKeysShareOneTable : Prop :=
  (∀ (g : Config) (key : Vector Byte g.b), g.b = 0 →
    g.c = 1 ∧ (packKey key).toList.map BitVec.toNat = [0]) ∧
  ∀ g : Config, g.b ≤ g.u →
    (packKey (g := g) (Vector.replicate g.b 0)).toList.map BitVec.toNat = [0] ∧
    (expand (g := g) (Vector.replicate g.b 0)).toList.map BitVec.toNat =
      (expand (g := { g with keyBytes := 0 })
        (Vector.replicate (Config.b { g with keyBytes := 0 }) 0)).toList.map BitVec.toNat

/-- Rule R108: an iteration rewrites `S[si]` with the new `A` and `L[li]` with the new `B`, and no other
word; and in the `n_mix` iterations every word of `S` and of `L` is so rewritten at least three
times. -/
def Obligations.MixingTouchesEverySlotThrice : Prop :=
  ∀ (g : Config) (key : Vector Byte g.b),
    (∀ n : Nat,
      let x := (Mix.start key).times n
      let y := (Mix.start key).times (n + 1)
      y.A = rotl (x.S[x.si] + x.A + x.B) 3 ∧ y.S[x.si] = y.A ∧
      (∀ i : Fin g.t, i ≠ x.si → y.S[i] = x.S[i]) ∧
      y.B = rotlW (x.L[x.li] + y.A + x.B) (y.A + x.B) ∧ y.L[x.li] = y.B ∧
      (∀ i : Fin g.c, i ≠ x.li → y.L[i] = x.L[i])) ∧
    (∀ i : Fin g.t, 3 ≤
      ((List.range g.nMix).filter fun n => decide (((Mix.start key).times n).si = i)).length) ∧
    (∀ i : Fin g.c, 3 ≤
      ((List.range g.nMix).filter fun n => decide (((Mix.start key).times n).li = i)).length)

/-- Rule R126: the inverse law, in both directions, for every table and block. -/
def Obligations.DecryptInvertsEncrypt : Prop :=
  ∀ (g : Config) (S : Vector g.Word g.t) (X : Vector Byte g.blockBytes),
    decrypt (encrypt X S) S = X ∧ encrypt (decrypt X S) S = X

/-- Rules R117 and R127: with `r = 0` the transforms are the two whitening additions and the two
subtractions only. -/
def Obligations.ZeroRoundsOnlyWhiten : Prop :=
  ∀ (g : Config) (S : Vector g.Word g.t) (X : Vector Byte g.blockBytes), g.r = 0 →
    encrypt X S = wordsBlock
      { A := (blockWords X).A + S[0]'g.t_pos, B := (blockWords X).B + S[1]'g.one_lt_t } ∧
    decrypt X S = wordsBlock
      { A := (blockWords X).A - S[0]'g.t_pos, B := (blockWords X).B - S[1]'g.one_lt_t }

/-! ## The commands -/

/-- Rules R102 and R114: KEYSCHED with `LEN = b`, on a ready core, whatever the registers hold,
completes with `S = expand(key)`, `key_valid = 1`, status OK, zero data, and every other element
zero, after `b + t + n_mix + 1` engine steps. -/
def Obligations.KeyschedCompletes : Prop :=
  ∀ s : State, s.Ready → s.NoReset (s.cfg.b + s.cfg.t + s.cfg.nMix + 2) →
    exec (.keysched s.cfg.b) s = .next
      (s.settle { S := expand (keyOf s.payload), keyValid := true, status := .ok,
                  data := zeroBlock s.cfg }
        (s.cfg.b + s.cfg.t + s.cfg.nMix + 1))

/-- Rules R115 and R123: ENCRYPT with `LEN = 2u` and a valid key, on a ready core, completes with
`encrypt(block, S)` and status OK after `r + 2` engine steps; `S` and `key_valid` are unchanged and
the working state is zero again. -/
def Obligations.EncryptCompletes : Prop :=
  ∀ s : State, s.Ready → s.Legal → s.regs.keyValid = true → s.NoReset (s.cfg.r + 3) →
    exec (.encrypt (2 * s.cfg.u)) s = .next
      (s.settle { S := s.regs.S, keyValid := true, status := .ok,
                  data := encrypt (blockOf s.payload) s.regs.S }
        (s.cfg.r + 2))

/-- Rules R124 and R131: DECRYPT, likewise with `decrypt(block, S)`. -/
def Obligations.DecryptCompletes : Prop :=
  ∀ s : State, s.Ready → s.Legal → s.regs.keyValid = true → s.NoReset (s.cfg.r + 3) →
    exec (.decrypt (2 * s.cfg.u)) s = .next
      (s.settle { S := s.regs.S, keyValid := true, status := .ok,
                  data := decrypt (blockOf s.payload) s.regs.S }
        (s.cfg.r + 2))

/-- Rules R132 to R134: ZEROIZE with any LEN, on a ready core, whatever the registers hold, erases
`S` and the working state, clears `key_valid`, and completes with OK after one engine step. -/
def Obligations.ZeroizeCompletes : Prop :=
  ∀ (s : State) (len : Nat), s.Ready → s.NoReset 2 →
    exec (.zeroize len) s = .next
      (s.settle { S := Vector.replicate _ 0, keyValid := false, status := .ok,
                  data := zeroBlock s.cfg } 1)

/-- Rules R139, R146 and R147: a command whose check fails completes after one engine step with its
code and zero data, and changes nothing but the response registers, `errc` and `k` (which a
completion clears). -/
def Obligations.RejectedCommandsChangeOnlyResponse : Prop :=
  ∀ (s : State) (i : Instr), s.Ready → s.NoReset 2 →
    check s.cfg i.opcode i.len s.regs.keyValid ≠ .ok →
    exec i s = .next
      { s with
        regs := { s.regs with
          rspValid := true
          rspStatus := (check s.cfg i.opcode i.len s.regs.keyValid).code
          rspData := zeroBlock s.cfg
          errc := 0
          k := 0 }
        host := s.host.drop 2 }

/-- Rules R83 and R135: a command with a reserved opcode completes with ILLEGAL_COMMAND after one
engine step and changes nothing else, whatever its LEN and payload. -/
def Obligations.ReservedCommandsAnswerIllegal : Prop :=
  ∀ s : State, s.Ready → s.NoReset 2 → s.now.cmdValid = true →
    ((hdrOp s.now.cmdHdr).toNat = 0 ∨ 5 ≤ (hdrOp s.now.cmdHdr).toNat) →
    step s = .next
      { s with
        regs := { s.regs with
          rspValid := true, rspStatus := 0x03, rspData := zeroBlock s.cfg, errc := 0, k := 0 }
        host := s.host.drop 2 }

/-- Rules R115, R118 and R124: the frame of ENCRYPT and DECRYPT with any LEN, from any registers of
a ready core: a next state that differs in `A`, `B`, `k`, `errc`, the phase and the response
only. -/
def Obligations.TransformsLeaveTheRestUnchanged : Prop :=
  ∀ (s : State) (len : Nat) (i : Instr), (i = .encrypt len ∨ i = .decrypt len) →
    s.Ready → s.NoReset (s.cfg.r + 3) →
    ∃ (r : Regs s.cfg) (h : List (HostEdge s.cfg)),
      exec i s = .next { s with regs := r, host := h } ∧
      r.S = s.regs.S ∧ r.keyValid = s.regs.keyValid ∧ r.L = s.regs.L ∧ r.KEY = s.regs.KEY ∧
      r.si = s.regs.si ∧ r.li = s.regs.li ∧ r.phase = .idle ∧ r.rspValid = true

/-- Rule R126 at the ports: the block an ENCRYPT was given comes back when its response is given to
a DECRYPT. -/
def Obligations.EncryptThenDecryptReturnsBlock : Prop :=
  ∀ s : State, s.Ready → s.Legal → s.regs.keyValid = true → s.NoReset (s.cfg.r + 3) →
    ∃ t : State, exec (.encrypt (2 * s.cfg.u)) s = .next t ∧
      ∃ v : State,
        exec (.decrypt (2 * s.cfg.u))
          { t with host := [presentCommand t.cfg (encode (.decrypt (2 * s.cfg.u)))
                              t.regs.rspData.toList] } = .next v ∧
        v.regs.rspData.toList = (blockOf s.payload).toList ∧ v.regs.rspStatus = 0

/-- Rule R162: a busy core does not accept a presented command: presenting it is the same as
presenting nothing. -/
def Obligations.BusyCoreDoesNotAccept : Prop :=
  ∀ (s : State) (i : Instr), s.regs.phase ≠ .idle → exec i s = execNothing s

/-! ## The clock edge -/

/-- Rules R47 and R55: the acceptance edge of any header leaves the core busy with the response
cleared, and the table as it was. -/
def Obligations.AcceptanceClearsResponse : Prop :=
  ∀ s : State, s.Ready → s.now.cmdValid = true →
    ∃ r : Regs s.cfg, s.edge = .next { s with regs := r, host := s.host.tail } ∧
      r.busy = true ∧ r.rspValid = false ∧ r.rspStatus = 0 ∧ r.rspData = zeroBlock s.cfg ∧
      r.S = s.regs.S

/-- Rules R54 and R156: an idle core changes no state at an edge without a command. -/
def Obligations.IdleEdgeChangesNothing : Prop :=
  ∀ s : State, s.Ready → s.now.cmdValid = false →
    s.edge = .next { s with host := s.host.tail } ∧ step s = s.edge

/-- Rules R25, R157 and R158: a reset edge in any state, busy or not, reset before or not, with or
without a command, gives every element its reset value. -/
def Obligations.ResetEdgeWins : Prop :=
  ∀ s : State, s.now.rst = true →
    s.edge = .next { s with regs := Regs.reset s.cfg, resetSeen := true, host := s.host.tail } ∧
    step s = s.edge

/-- Rule R59: a reset edge gives every element its reset value; these values; and the outputs after
reset. -/
def Obligations.ResetValues : Prop :=
  (∀ s : State, s.now.rst = true →
    ∃ h : List (HostEdge s.cfg),
      s.edge = .next { s with regs := Regs.reset s.cfg, resetSeen := true, host := h }) ∧
  ∀ g : Config,
    (Regs.reset g).phase = .idle ∧ (Regs.reset g).k = 0 ∧ (Regs.reset g).si.val = 0 ∧
    (Regs.reset g).li.val = 0 ∧ (Regs.reset g).A = 0 ∧ (Regs.reset g).B = 0 ∧
    (∀ i : Fin g.t, (Regs.reset g).S[i] = 0) ∧ (∀ i : Fin g.c, (Regs.reset g).L[i] = 0) ∧
    (∀ i : Fin g.b, (Regs.reset g).KEY[i] = 0) ∧ (Regs.reset g).keyValid = false ∧
    (Regs.reset g).rspValid = false ∧ (Regs.reset g).rspStatus = 0 ∧
    (∀ i : Fin g.blockBytes, (Regs.reset g).rspData[i] = 0) ∧ (Regs.reset g).errc = 0 ∧
    (Regs.reset g).sts = 0 ∧ (Regs.reset g).rspBus = 0 ∧ (Regs.reset g).cmdReady false = true

/-- Rules R55 and R162: at an edge of a busy core the command inputs have no effect. -/
def Obligations.BusyEdgeIgnoresCommandInputs : Prop :=
  ∀ (s : State) (e e' : HostEdge s.cfg) (later : List (HostEdge s.cfg)),
    s.regs.phase ≠ .idle → e.rst = e'.rst →
    State.edge { s with host := e :: later } = State.edge { s with host := e' :: later }

/-- Rules R159 and U1: before the first reset edge every edge that is not a reset edge is refused,
and `sts` is unspecified, while `cfg` is constant. -/
def Obligations.UnresetCoreIsRefused : Prop :=
  ∀ s : State, s.resetSeen = false → s.now.rst = false →
    s.edge = .refused .beforeFirstReset ∧ step s = .refused .beforeFirstReset ∧
    (∀ i : Instr, exec i s = .refused .beforeFirstReset) ∧ s.sts = none ∧
    s.cfgOut = Config.word s.cfg

/-- Rule R80: the step runs the command the header decodes to, the reserved command where it decodes
to none, and an edge without a command where none is presented. -/
def Obligations.StepRunsDecodedCommand : Prop :=
  ∀ s : State,
    (∀ i : Instr, s.now.cmdValid = true → decode s.now.cmdHdr = .ok i → step s = exec i s) ∧
    (∀ e : DecodeError, s.now.cmdValid = true → decode s.now.cmdHdr = .error e →
      step s = execReserved s.now.cmdHdr s) ∧
    (s.now.cmdValid = false → step s = execNothing s)

/-- An opcode-table word placed by `withFetchWord` is the command the very next step runs. -/
def Obligations.FetchedWordRunsNext : Prop :=
  ∀ (s : State) (nbits w : Nat) (i : Instr), decodeTableWord nbits w = some i →
    step (s.withFetchWord nbits w) = exec i (s.withFetchWord nbits w) ∧
    (s.withFetchWord nbits w).Ready

/-- Rule R166: the latency of each command and outcome, and the largest of any instance; and after the
acceptance edge of any header the core is busy for exactly the latency of the command, and idle after
that many engine steps. -/
def Obligations.LatencyIsExact : Prop :=
  (∀ (g : Config) (kv : Bool),
    (∀ (op : Byte) (len : Nat), check g op len kv ≠ .ok → latency g op len kv = 1) ∧
    (∀ len : Nat, latency g 0x04 len kv = 1) ∧
    latency g 0x01 g.b kv = g.b + g.t + g.nMix + 1 ∧
    latency g 0x02 (2 * g.u) true = g.r + 2 ∧ latency g 0x03 (2 * g.u) true = g.r + 2 ∧
    (∀ (op : Byte) (len : Nat), 1 ≤ latency g op len kv ∧ latency g op len kv ≤ 2304) ∧
    latency { width := .w16, rounds := 255, keyBytes := 255 } 0x01 255 kv = 2304) ∧
  ∀ (s : State) (m : Nat), s.Ready → s.now.cmdValid = true → s.NoReset (m + 1) →
    m ≤ latency s.cfg (hdrOp s.now.cmdHdr) (hdrLen s.now.cmdHdr) s.regs.keyValid →
    ∃ t : State, s.edges (m + 1) = .next t ∧
      t.regs.busy =
        decide (m < latency s.cfg (hdrOp s.now.cmdHdr) (hdrLen s.now.cmdHdr) s.regs.keyValid)

/-- Rule R158: a reset edge before the completion of a command, whichever it is, abandons it: the
step ends with every element at its reset value. -/
def Obligations.ResetAbandonsCommand : Prop :=
  ∀ (s : State) (e : HostEdge s.cfg) (before : List (HostEdge s.cfg)) (rstEdge : HostEdge s.cfg)
    (later : List (HostEdge s.cfg)),
    s.Ready → s.host = e :: (before ++ rstEdge :: later) → e.cmdValid = true →
    (∀ x ∈ before, x.rst = false) → rstEdge.rst = true →
    before.length < latency s.cfg (hdrOp e.cmdHdr) (hdrLen e.cmdHdr) s.regs.keyValid →
    step s = .next { s with regs := Regs.reset s.cfg, host := later }

/-- Rules R54 and R58: a step is a number of clock edges, at most 2305 of them from a legal state,
under the host's own inputs. -/
def Obligations.StepIsClockEdges : Prop :=
  ∀ s : State, s.Legal → ∃ n : Nat, n ≤ 2305 ∧ s.edges n = step s

/-- Rule R58: the engine refines the transaction view. From a legal ready core, whatever header is
presented, the core stays busy without a response for the edges before its one completion edge, and
there holds the response, the table and `key_valid` that the transaction-level rules give as a
function of the command and of `S` and `key_valid` at acceptance alone. -/
def Obligations.EngineRefinesTransactionView : Prop :=
  ∀ (s : State) (n : Nat), s.Ready → s.Legal → s.now.cmdValid = true →
    n = latency s.cfg (hdrOp s.now.cmdHdr) (hdrLen s.now.cmdHdr) s.regs.keyValid →
    s.NoReset (n + 1) →
    step s = .next
      (s.settle (commandResult s.now.cmdHdr s.payload s.regs.S s.regs.keyValid) n) ∧
    s.edges (n + 1) = step s ∧
    ∀ m : Nat, m < n → ∃ t : State, s.edges (m + 1) = .next t ∧ t.regs.busy = true ∧
      t.regs.rspValid = false

/-- Rule R167: a latency depends on the opcode, the check's result and the parameters only; and the
status word, edge after edge, does not depend on the key bytes, the block or the contents of `S`: two
cores that agree on the sequencer and whose hosts present the same commands with different payloads
show the same status words. -/
def Obligations.StatusIndependentOfData : Prop :=
  (∀ (g : Config) (op : Byte) (len len' : Nat) (kv kv' : Bool),
    check g op len kv = check g op len' kv' → latency g op len kv = latency g op len' kv') ∧
  ∀ (g : Config) (r₁ r₂ : Regs g) (seen : Bool) (h₁ h₂ : List (HostEdge g)) (n : Nat),
    r₁.control = r₂.control → h₁.map HostEdge.control = h₂.map HostEdge.control →
    stsOf (State.edges { cfg := g, regs := r₁, resetSeen := seen, host := h₁ } n) =
      stsOf (State.edges { cfg := g, regs := r₂, resetSeen := seen, host := h₂ } n)

/-! ## Invariants -/

/-- The state after reset of every instance is legal and its table erased (rule R59). -/
def Obligations.ResetIsLegal : Prop :=
  ∀ g : Config, (State.resetOf g).Legal ∧ (State.resetOf g).TableOk ∧ (State.resetOf g).Ready

/-- A legal core never stops at a clock edge, and stays legal: counters in range (rules R34 and
R61), working state zero when idle (rule R53), response registers and `errc` as rules R42 to R44
and R145 say. -/
def Obligations.EdgeKeepsLegal : Prop :=
  ∀ s : State, s.resetSeen = true → s.regs.Legal →
    ∃ t : State, s.edge = .next t ∧ t.cfg = s.cfg ∧ t.resetSeen = true ∧ t.regs.Legal

/-- A step from a legal core answers a next state, legal and idle. -/
def Obligations.StepKeepsLegal : Prop :=
  ∀ s : State, s.resetSeen = true → s.regs.Legal →
    ∃ t : State, step s = .next t ∧ t.cfg = s.cfg ∧ t.resetSeen = true ∧ t.regs.Legal ∧
      t.regs.phase = .idle

/-- Rule R40: the table invariant holds at every clock edge of a legal core: whenever `key_valid` is
1 the table is the expansion of a key, and an idle core without a key holds an erased table. -/
def Obligations.EdgeKeepsTable : Prop :=
  ∀ s t : State, s.resetSeen = true → s.regs.Legal → s.regs.TableOk → s.edge = .next t →
    t.regs.TableOk

/-- Rule R53: whenever the core is idle after a reset edge, whatever the state before it and whatever
the host does after it, `L`, `KEY`, `A`, `B`, `si`, `li`, `k` and `errc` are zero. -/
def Obligations.IdleWorkingStateIsZero : Prop :=
  ∀ (s t : State) (n : Nat), s.now.rst = true → s.edges (n + 1) = .next t →
    t.regs.phase = .idle →
    t.regs.L = Vector.replicate _ 0 ∧ t.regs.KEY = Vector.replicate _ 0 ∧ t.regs.A = 0 ∧
    t.regs.B = 0 ∧ t.regs.si.val = 0 ∧ t.regs.li.val = 0 ∧ t.regs.k = 0 ∧ t.regs.errc = 0

/-- Rules R40 and R158: after a reset edge, at every later edge, `key_valid = 1` only while `S` is
the expansion of some key, and an idle core with `key_valid = 0` holds the erased table; a partly
mixed table is never marked valid. -/
def Obligations.ValidKeyMeansExpandedTable : Prop :=
  ∀ (s t : State) (n : Nat), s.now.rst = true → s.edges (n + 1) = .next t →
    (t.regs.keyValid = true → ∃ key : Vector Byte t.cfg.b, t.regs.S = expand key) ∧
    (t.regs.phase = .idle → t.regs.keyValid = false → t.regs.S = Vector.replicate _ 0)

/-- Rules R49 and R145: after a reset edge, at every later edge, no response status but those of
rule R82 stands, an error status comes with zero data, and without a response both registers
are 0. -/
def Obligations.ResponsesAreWellFormed : Prop :=
  ∀ (s t : State) (n : Nat), s.now.rst = true → s.edges (n + 1) = .next t →
    t.regs.rspStatus.toNat ≤ 4 ∧
    (t.regs.rspStatus ≠ 0 → t.regs.rspData = zeroBlock t.cfg) ∧
    (t.regs.rspValid = false → t.regs.rspStatus = 0 ∧ t.regs.rspData = zeroBlock t.cfg) ∧
    (t.regs.busy = true → t.regs.rspValid = false)

/-! ## Outputs -/

/-- Rule R50: the fields of the status word, and its reset value. -/
def Obligations.StatusWordFields : Prop :=
  ∀ (g : Config) (r : Regs g),
    r.sts.getLsbD 0 = decide (r.phase ≠ .idle) ∧ r.sts.getLsbD 1 = r.keyValid ∧
    r.sts.getLsbD 2 = r.rspValid ∧ r.sts.extractLsb' 3 5 = 0 ∧
    r.sts.extractLsb' 8 8 = r.rspStatus ∧ (Regs.reset g).sts = 0

/-- Rules R32 and R51: the fields of the configuration word, which no edge changes. -/
def Obligations.ConfigurationWordFields : Prop :=
  (∀ s t : State, s.edge = .next t → t.cfgOut = s.cfgOut) ∧
  (∀ g : Config,
    ((Config.word g).extractLsb' 0 8).toNat = g.w ∧
    ((Config.word g).extractLsb' 8 8).toNat = g.r ∧
    ((Config.word g).extractLsb' 16 8).toNat = g.b) ∧
  Config.word rc5_32_12_16 = 0x100C20

/-- Rule R65: byte `j` of a bus stands at bits `8j+7:8j`, and a block of words `A` and `B` is the
value `B * 2^w + A`. -/
def Obligations.BusesCarryByteLanes : Prop :=
  ∀ (g : Config) (r : Regs g) (e : HostEdge g) (p : WordPair g),
    (∀ j : Fin g.dmax, e.payload[j] = e.cmdData.extractLsb' (8 * j.val) 8) ∧
    (∀ j : Fin g.blockBytes, r.rspBus.extractLsb' (8 * j.val) 8 = r.rspData[j]) ∧
    (r.rspData = wordsBlock p → r.rspBus.toNat = p.B.toNat * 2 ^ g.w + p.A.toNat)

/-! ## Runs and programs -/

/-- Rules R86, R162 and R170: a command line is held on the ports until it is accepted, on an idle core
at once and on a busy one after the command in progress has completed (with its own pair, if the run
saw it accepted); then it completes as the transaction rules say, and is observed with its own
response. A RESET line abandons what is in progress and adds no pair. How the line is held, and what
makes up a pair, are the model's reading (log entries 8 and 13). -/
def Obligations.HeldLineIsAcceptedAndObserved : Prop :=
  (∀ (x : Progress) (l : HostLine), x.state.resetSeen = true → x.state.regs.Legal → l ≠ .reset →
    ∃ (q : State) (y : Progress),
      (x.state.withLine l).edges x.state.regs.stepsLeft = .next q ∧
      q.cfg = x.state.cfg ∧ q.regs.phase = .idle ∧ q.host = [l.assemble q.cfg] ∧
      runLine l x = .next y ∧
      y.state = { q with
        regs := (commandResult (l.assemble q.cfg).cmdHdr (l.assemble q.cfg).payload q.regs.S
          q.regs.keyValid).settled
        host := [] } ∧
      y.command = none ∧
      y.observed = x.observed ++
        (if x.state.regs.phase = .idle then [] else (x.command.map fun c => c.answered q).toList) ++
        [(acceptedCommand (l.assemble q.cfg).cmdHdr (l.assemble q.cfg).payload).answered y.state]) ∧
  ∀ x : Progress, runLine .reset x = .next
    { state := { x.state with regs := Regs.reset x.state.cfg, resetSeen := true, host := [] }
      command := none
      observed := x.observed }

/-- For any run of edges: between the acceptance of a command and its completion edge the command is in
progress and nothing is observed; the completion edge adds the pair of the command as accepted and its
response; and a reset edge before it adds nothing. Rule R170 says that the observation is pairs in
acceptance order, and rule R158 that an abandoned command has no response. That such a command gives no
pair, and what makes up a pair (the header, the bytes `payload[0..LEN)`, the response right after the
completion edge), are the model's reading, DEDUCED (log entry 13). -/
def Obligations.RunObservesEachCompletion : Prop :=
  ∀ (x : Progress) (n : Nat), x.state.Ready → x.state.Legal → x.state.now.cmdValid = true →
    n = latency x.state.cfg (hdrOp x.state.now.cmdHdr) (hdrLen x.state.now.cmdHdr)
      x.state.regs.keyValid →
    (∀ m : Nat, m < n → x.state.NoReset (m + 1) →
      (∃ t : State, t.regs.busy = true ∧ x.edges (m + 1) = .next
        { state := t
          command := some (acceptedCommand x.state.now.cmdHdr x.state.payload)
          observed := x.observed }) ∧
      (∀ e : HostEdge x.state.cfg, x.state.host[m + 1]? = some e → e.rst = true →
        x.edges (m + 2) = .next
          { state := { x.state with
              regs := Regs.reset x.state.cfg, host := x.state.host.drop (m + 2) }
            command := none
            observed := x.observed })) ∧
    (x.state.NoReset (n + 1) →
      ∃ t : State,
        t = x.state.settle
          (commandResult x.state.now.cmdHdr x.state.payload x.state.regs.S x.state.regs.keyValid) n ∧
        x.edges (n + 1) = .next
          { state := t
            command := none
            observed := x.observed ++
              [(acceptedCommand x.state.now.cmdHdr x.state.payload).answered t] })

/-- Rule R170: the run of any inputs that start with a reset edge reaches its last edge, and has ended
there exactly if no command is in progress (a command abandoned by a reset edge has no response, rule
R158, and is not in progress); a command is in progress exactly while `phase /= IDLE`; and once a run
has ended, no later edge without a command adds to its observation. That the host presents no further
command when no edge left has `cmd_valid = 1` is the model's reading, DEDUCED (log entry 13). -/
def Obligations.RunEndsWhenNothingIsInProgress : Prop :=
  (∀ s : State, s.StartsRun → ∃ y : Progress, s.run = .next y ∧ y.state.host = [] ∧
    (y.Ended ↔ y.command = none)) ∧
  (∀ (x y : Progress) (n : Nat), x.state.StartsRun → x.edges (n + 1) = .next y →
    (y.command = none ↔ y.state.regs.phase = .idle)) ∧
  ∀ (y : Progress) (m : Nat), y.state.resetSeen = true → y.Ended →
    ∃ z : Progress, y.edges m = .next z ∧ z.observed = y.observed ∧ z.Ended

/-- Rules R29, R157 and R159: `cmd_ready` is 0 while `rst = 1`, in any state, also before the first reset
edge; otherwise it is 1 exactly on an idle core that has been reset. With `rst = 0` before the first reset
edge it is unspecified, which the model shows as no value (log entry 4). At an edge with `cmd_ready = 1` a
presented command is accepted (rule R55); at one with `cmd_ready = 0` and no reset the inputs have no
effect. -/
def Obligations.CommandReadyFollowsPhaseAndReset : Prop :=
  ∀ s : State,
    (s.now.rst = true → s.cmdReady = some false) ∧
    (s.now.rst = false → s.resetSeen = true → s.cmdReady = some (decide (s.regs.phase = .idle))) ∧
    (s.now.rst = false → s.resetSeen = false → s.cmdReady = none) ∧
    (s.cmdReady = some true ↔ s.Ready) ∧
    (s.cmdReady = some true → s.now.cmdValid = true →
      s.edge = .next { s with
        regs := accept s.now.cmdHdr s.now.payload s.regs
        host := s.host.tail }) ∧
    (s.cmdReady = some false → s.now.rst = false → ∀ e : HostEdge s.cfg, e.rst = false →
      State.edge { s with host := e :: s.host.tail } = s.edge)
end

