-- ==== Sys2Proof/Laws/Arith.lean ====
section
/-! SUPPORT. Widths, the little-endian sum and its bits, and the byte lanes of the payload. -/

namespace Sys2Proof.Machine

variable {g : Config}

theorem w_cases (g : Config) : g.w = 16 ∨ g.w = 32 ∨ g.w = 64 := by
  unfold Config.w; cases g.width <;> simp [Width.bits]

theorem w_pos (g : Config) : 0 < g.w := by rcases w_cases g with h | h | h <;> omega

theorem w_eq (g : Config) : g.w = 8 * g.u := by
  unfold Config.u; rcases w_cases g with h | h | h <;> omega

theorem two_pow_lgw (g : Config) : 2 ^ g.lgw = g.w := by
  unfold Config.w Config.lgw; cases g.width <;> rfl

theorem latency_bounds (g : Config) : g.b + g.t + g.nMix + 1 ≤ 2304 ∧ g.r ≤ 255 := by
  have hb : g.b < 256 := g.keyBytes.isLt
  have hr : g.r < 256 := g.rounds.isLt
  have hu : 2 ≤ g.u := by have := w_eq g; rcases w_cases g with h | h | h <;> omega
  have hc : g.c ≤ 512 := by
    unfold Config.c
    split
    · omega
    · exact (Nat.div_le_self _ _).trans (by
        have := w_eq g; rcases w_cases g with h | h | h <;> omega)
  have ht : g.t = 2 * (g.r + 1) := rfl
  have hn : g.nMix = 3 * max g.t g.c := rfl
  omega

theorem nMix_pos (g : Config) : 0 < g.nMix := by
  have := g.t_pos
  unfold Config.nMix
  omega

/-- A byte is a constant when its value is. -/
theorem byte_eq_iff (x : Byte) (n : Nat) (hn : n < 256) : x = BitVec.ofNat 8 n ↔ x.toNat = n := by
  constructor
  · rintro rfl; simp [Nat.mod_eq_of_lt hn]
  · intro e; apply BitVec.eq_of_toNat_eq; simp [e, Nat.mod_eq_of_lt hn]

theorem leSum_nil : leSum [] = 0 := rfl

theorem leSum_cons (x : Byte) (d : List Byte) : leSum (x :: d) = x.toNat + 256 * leSum d := rfl

theorem leSum_lt (d : List Byte) : leSum d < 2 ^ (8 * d.length) := by
  induction d with
  | nil => simp [leSum]
  | cons x d ih =>
    have hx := x.isLt
    have e : 2 ^ (8 * (x :: d).length) = 256 * 2 ^ (8 * d.length) := by
      rw [List.length_cons, show 8 * (d.length + 1) = 8 + 8 * d.length by ring, Nat.pow_add]
    rw [e, leSum_cons]
    omega

/-- Bit `i` of the sum is bit `i mod 8` of byte `i / 8`. -/
theorem leSum_testBit (d : List Byte) (i : Nat) :
    (leSum d).testBit i = (d.getD (i / 8) 0).getLsbD (i % 8) := by
  induction d generalizing i with
  | nil => simp [leSum]
  | cons x d ih =>
    rw [leSum_cons, show x.toNat + 256 * leSum d = 2 ^ 8 * leSum d + x.toNat by ring]
    have hx : x.toNat < 2 ^ 8 := x.isLt
    rw [Nat.testBit_two_pow_mul_add _ hx]
    split
    · next h => rw [Nat.div_eq_of_lt h, Nat.mod_eq_of_lt h]; rfl
    · next h =>
      obtain ⟨j, rfl⟩ : ∃ j, i = j + 8 := ⟨i - 8, by omega⟩
      rw [Nat.add_sub_cancel, ih]; simp

theorem leSum_append (a b : List Byte) :
    leSum (a ++ b) = leSum a + 2 ^ (8 * a.length) * leSum b := by
  induction a with
  | nil => simp [leSum]
  | cons x a ih =>
    rw [List.cons_append, leSum_cons, leSum_cons, ih, List.length_cons,
      show 8 * (a.length + 1) = 8 + 8 * a.length by ring, Nat.pow_add]
    ring

theorem leSum_zeros (n : Nat) : leSum (List.replicate n 0) = 0 := by
  induction n with
  | zero => rfl
  | succ n ih => rw [List.replicate_succ, leSum_cons, ih]; rfl

/-- Lane `j` of a bus that carries the sum of some bytes is byte `j`. -/
theorem extract_leSum (n j : Nat) (d : List Byte) (h : 8 * j + 8 ≤ n) :
    (BitVec.ofNat n (leSum d)).extractLsb' (8 * j) 8 = d.getD j 0 := by
  apply BitVec.eq_of_getLsbD_eq
  intro i hi
  rw [BitVec.getLsbD_extractLsb', BitVec.getLsbD_ofNat, leSum_testBit,
    show (8 * j + i) / 8 = j by omega, show (8 * j + i) % 8 = i by omega]
  simp [hi, show 8 * j + i < n by omega]

theorem leDecode_toNat (d : Vector Byte g.u) : (leDecode d).toNat = leSum d.toList := by
  unfold leDecode
  rw [BitVec.toNat_ofNat, Nat.mod_eq_of_lt]
  have := leSum_lt d.toList
  simpa [w_eq g] using this

theorem leDecode_getLsbD (d : Vector Byte g.u) (i : Nat) (hi : i < g.w) :
    (leDecode d).getLsbD i = (d.toList.getD (i / 8) 0).getLsbD (i % 8) := by
  unfold leDecode
  rw [BitVec.getLsbD_ofNat, leSum_testBit]; simp [hi]

theorem leEncode_getElem (x : g.Word) (j : Nat) (h : j < g.u) :
    (leEncode x)[j] = x.extractLsb' (8 * j) 8 := by simp [leEncode]

theorem payload_getElem (e : HostEdge g) (j : Nat) (h : j < g.dmax) :
    e.payload[j] = e.cmdData.extractLsb' (8 * j) 8 := by simp [HostEdge.payload]

/-- The payload of a command the host presents is its bytes, missing bytes 0. -/
theorem presentCommand_payload (hd : BitVec 16) (bs : List Byte) (j : Nat) (h : j < g.dmax) :
    (presentCommand g hd bs).payload[j] = bs.getD j 0 := by
  rw [payload_getElem _ _ h]; exact extract_leSum _ _ _ (by omega)

end Sys2Proof.Machine
end

