-- ==== Sys2Proof/Laws/KeySchedule.lean ====
section
/-! SUPPORT. The three loops of `expand`, word by word. -/

namespace Sys2Proof.Machine

variable {g : Config}

theorem initWord_getElem (S : Vector g.Word g.t) (k : Fin g.t) (i : Nat) (h : i < g.t) :
    (initWord S k)[i] =
      if k.val = i then (if k.val = 0 then constP g else S[k.val - 1] + constQ g) else S[i] := by
  unfold initWord; rw [Vector.getElem_set]

theorem packByte_getElem (key : Vector Byte g.b) (L : Vector g.Word g.c) (j : Fin g.b) (i : Nat)
    (h : i < g.c) :
    (packByte key L j)[i] =
      if j.val / g.u = i then
        rotl (L[j.val / g.u]'(g.div_u_lt_c j.isLt)) 8 + wordFromByte g key[j]
      else L[i] := by
  unfold packByte; rw [Vector.getElem_set]

/-- The words initialized so far do not depend on what the table held. -/
theorem initUp_getElem_congr (S T : Vector g.Word g.t) (n : Nat) (h : n ≤ g.t) (i : Nat)
    (hi : i < n) : (initUp S n h)[i] = (initUp T n h)[i] := by
  induction n generalizing i with
  | zero => omega
  | succ n ih =>
    unfold initUp
    rw [initWord_getElem, initWord_getElem]
    dsimp only
    split
    · split
      · rfl
      · rw [ih _ _ (by omega)]
    · exact ih _ _ (by omega)

/-- A table whose words have all been initialized is the table of step 2 of rule R103. -/
theorem initUp_all (S : Vector g.Word g.t) : initUp S g.t (Nat.le_refl _) = initTable g := by
  apply Vector.ext
  intro i hi
  exact initUp_getElem_congr S _ g.t (Nat.le_refl _) i hi

@[simp] theorem Mix.times_zero (m : Mix g) : m.times 0 = m := rfl

theorem Mix.times_succ (m : Mix g) (n : Nat) : m.times (n + 1) = (m.times n).next := rfl

theorem Mix.times_si (m : Mix g) (n : Nat) : ((m.times n).si).val = (m.si.val + n) % g.t := by
  induction n with
  | zero => simp [Mix.times, Nat.mod_eq_of_lt]
  | succ n ih => simp [Mix.times, Mix.next, ih, Nat.add_assoc]

theorem Mix.times_li (m : Mix g) (n : Nat) : ((m.times n).li).val = (m.li.val + n) % g.c := by
  induction n with
  | zero => simp [Mix.times, Nat.mod_eq_of_lt]
  | succ n ih => simp [Mix.times, Mix.next, ih, Nat.add_assoc]

end Sys2Proof.Machine
end

