-- ==== Sys2Proof/Laws/State.lean ====
section
/-! SUPPORT. One lemma for each field under each shared update of the registers and of the state, so
that no proof unfolds a record update. -/

namespace Sys2Proof.Machine

variable {g : Config}

/-! ### The response registers cleared (rule R55) -/

@[simp] theorem Regs.clearResponse_phase (r : Regs g) :
    (r.clearResponse).phase = r.phase := rfl

@[simp] theorem Regs.clearResponse_k (r : Regs g) :
    (r.clearResponse).k = r.k := rfl

@[simp] theorem Regs.clearResponse_si (r : Regs g) :
    (r.clearResponse).si = r.si := rfl

@[simp] theorem Regs.clearResponse_li (r : Regs g) :
    (r.clearResponse).li = r.li := rfl

@[simp] theorem Regs.clearResponse_A (r : Regs g) :
    (r.clearResponse).A = r.A := rfl

@[simp] theorem Regs.clearResponse_B (r : Regs g) :
    (r.clearResponse).B = r.B := rfl

@[simp] theorem Regs.clearResponse_S (r : Regs g) :
    (r.clearResponse).S = r.S := rfl

@[simp] theorem Regs.clearResponse_L (r : Regs g) :
    (r.clearResponse).L = r.L := rfl

@[simp] theorem Regs.clearResponse_KEY (r : Regs g) :
    (r.clearResponse).KEY = r.KEY := rfl

@[simp] theorem Regs.clearResponse_keyValid (r : Regs g) :
    (r.clearResponse).keyValid = r.keyValid := rfl

@[simp] theorem Regs.clearResponse_rspValid (r : Regs g) :
    (r.clearResponse).rspValid = false := rfl

@[simp] theorem Regs.clearResponse_rspStatus (r : Regs g) :
    (r.clearResponse).rspStatus = 0 := rfl

@[simp] theorem Regs.clearResponse_rspData (r : Regs g) :
    (r.clearResponse).rspData = zeroBlock g := rfl

@[simp] theorem Regs.clearResponse_errc (r : Regs g) :
    (r.clearResponse).errc = r.errc := rfl

/-! ### A rejected command (rule R146) -/

@[simp] theorem Regs.reject_phase (st : Status) (r : Regs g) :
    (r.reject st).phase = .err := rfl

@[simp] theorem Regs.reject_k (st : Status) (r : Regs g) :
    (r.reject st).k = r.k := rfl

@[simp] theorem Regs.reject_si (st : Status) (r : Regs g) :
    (r.reject st).si = r.si := rfl

@[simp] theorem Regs.reject_li (st : Status) (r : Regs g) :
    (r.reject st).li = r.li := rfl

@[simp] theorem Regs.reject_A (st : Status) (r : Regs g) :
    (r.reject st).A = r.A := rfl

@[simp] theorem Regs.reject_B (st : Status) (r : Regs g) :
    (r.reject st).B = r.B := rfl

@[simp] theorem Regs.reject_S (st : Status) (r : Regs g) :
    (r.reject st).S = r.S := rfl

@[simp] theorem Regs.reject_L (st : Status) (r : Regs g) :
    (r.reject st).L = r.L := rfl

@[simp] theorem Regs.reject_KEY (st : Status) (r : Regs g) :
    (r.reject st).KEY = r.KEY := rfl

@[simp] theorem Regs.reject_keyValid (st : Status) (r : Regs g) :
    (r.reject st).keyValid = r.keyValid := rfl

@[simp] theorem Regs.reject_rspValid (st : Status) (r : Regs g) :
    (r.reject st).rspValid = r.rspValid := rfl

@[simp] theorem Regs.reject_rspStatus (st : Status) (r : Regs g) :
    (r.reject st).rspStatus = r.rspStatus := rfl

@[simp] theorem Regs.reject_rspData (st : Status) (r : Regs g) :
    (r.reject st).rspData = r.rspData := rfl

@[simp] theorem Regs.reject_errc (st : Status) (r : Regs g) :
    (r.reject st).errc = st.code := rfl

/-! ### A completion (rule R57) -/

@[simp] theorem Regs.complete_phase (st : Byte) (d : Vector Byte g.blockBytes) (r : Regs g) :
    (r.complete st d).phase = .idle := rfl

@[simp] theorem Regs.complete_k (st : Byte) (d : Vector Byte g.blockBytes) (r : Regs g) :
    (r.complete st d).k = 0 := rfl

@[simp] theorem Regs.complete_si (st : Byte) (d : Vector Byte g.blockBytes) (r : Regs g) :
    (r.complete st d).si = r.si := rfl

@[simp] theorem Regs.complete_li (st : Byte) (d : Vector Byte g.blockBytes) (r : Regs g) :
    (r.complete st d).li = r.li := rfl

@[simp] theorem Regs.complete_A (st : Byte) (d : Vector Byte g.blockBytes) (r : Regs g) :
    (r.complete st d).A = r.A := rfl

@[simp] theorem Regs.complete_B (st : Byte) (d : Vector Byte g.blockBytes) (r : Regs g) :
    (r.complete st d).B = r.B := rfl

@[simp] theorem Regs.complete_S (st : Byte) (d : Vector Byte g.blockBytes) (r : Regs g) :
    (r.complete st d).S = r.S := rfl

@[simp] theorem Regs.complete_L (st : Byte) (d : Vector Byte g.blockBytes) (r : Regs g) :
    (r.complete st d).L = r.L := rfl

@[simp] theorem Regs.complete_KEY (st : Byte) (d : Vector Byte g.blockBytes) (r : Regs g) :
    (r.complete st d).KEY = r.KEY := rfl

@[simp] theorem Regs.complete_keyValid (st : Byte) (d : Vector Byte g.blockBytes) (r : Regs g) :
    (r.complete st d).keyValid = r.keyValid := rfl

@[simp] theorem Regs.complete_rspValid (st : Byte) (d : Vector Byte g.blockBytes) (r : Regs g) :
    (r.complete st d).rspValid = true := rfl

@[simp] theorem Regs.complete_rspStatus (st : Byte) (d : Vector Byte g.blockBytes) (r : Regs g) :
    (r.complete st d).rspStatus = st := rfl

@[simp] theorem Regs.complete_rspData (st : Byte) (d : Vector Byte g.blockBytes) (r : Regs g) :
    (r.complete st d).rspData = d := rfl

@[simp] theorem Regs.complete_errc (st : Byte) (d : Vector Byte g.blockBytes) (r : Regs g) :
    (r.complete st d).errc = 0 := rfl

/-! ### The working state erased (rules R113 and R134) -/

@[simp] theorem Regs.eraseScratch_phase (r : Regs g) :
    (r.eraseScratch).phase = r.phase := rfl

@[simp] theorem Regs.eraseScratch_k (r : Regs g) :
    (r.eraseScratch).k = r.k := rfl

@[simp] theorem Regs.eraseScratch_si (r : Regs g) :
    (r.eraseScratch).si = ⟨0, g.t_pos⟩ := rfl

@[simp] theorem Regs.eraseScratch_li (r : Regs g) :
    (r.eraseScratch).li = ⟨0, g.c_pos⟩ := rfl

@[simp] theorem Regs.eraseScratch_A (r : Regs g) :
    (r.eraseScratch).A = 0 := rfl

@[simp] theorem Regs.eraseScratch_B (r : Regs g) :
    (r.eraseScratch).B = 0 := rfl

@[simp] theorem Regs.eraseScratch_S (r : Regs g) :
    (r.eraseScratch).S = r.S := rfl

@[simp] theorem Regs.eraseScratch_L (r : Regs g) :
    (r.eraseScratch).L = Vector.replicate _ 0 := rfl

@[simp] theorem Regs.eraseScratch_KEY (r : Regs g) :
    (r.eraseScratch).KEY = Vector.replicate _ 0 := rfl

@[simp] theorem Regs.eraseScratch_keyValid (r : Regs g) :
    (r.eraseScratch).keyValid = r.keyValid := rfl

@[simp] theorem Regs.eraseScratch_rspValid (r : Regs g) :
    (r.eraseScratch).rspValid = r.rspValid := rfl

@[simp] theorem Regs.eraseScratch_rspStatus (r : Regs g) :
    (r.eraseScratch).rspStatus = r.rspStatus := rfl

@[simp] theorem Regs.eraseScratch_rspData (r : Regs g) :
    (r.eraseScratch).rspData = r.rspData := rfl

@[simp] theorem Regs.eraseScratch_errc (r : Regs g) :
    (r.eraseScratch).errc = r.errc := rfl

/-! ### The registers after a reset edge (rule R59) -/

@[simp] theorem Regs.reset_phase : (Regs.reset g).phase = .idle := rfl

@[simp] theorem Regs.reset_k : (Regs.reset g).k = 0 := rfl

@[simp] theorem Regs.reset_si : (Regs.reset g).si = ⟨0, g.t_pos⟩ := rfl

@[simp] theorem Regs.reset_li : (Regs.reset g).li = ⟨0, g.c_pos⟩ := rfl

@[simp] theorem Regs.reset_A : (Regs.reset g).A = 0 := rfl

@[simp] theorem Regs.reset_B : (Regs.reset g).B = 0 := rfl

@[simp] theorem Regs.reset_S : (Regs.reset g).S = Vector.replicate _ 0 := rfl

@[simp] theorem Regs.reset_L : (Regs.reset g).L = Vector.replicate _ 0 := rfl

@[simp] theorem Regs.reset_KEY : (Regs.reset g).KEY = Vector.replicate _ 0 := rfl

@[simp] theorem Regs.reset_keyValid : (Regs.reset g).keyValid = false := rfl

@[simp] theorem Regs.reset_rspValid : (Regs.reset g).rspValid = false := rfl

@[simp] theorem Regs.reset_rspStatus : (Regs.reset g).rspStatus = 0 := rfl

@[simp] theorem Regs.reset_rspData : (Regs.reset g).rspData = zeroBlock g := rfl

@[simp] theorem Regs.reset_errc : (Regs.reset g).errc = 0 := rfl

/-! ### The mixing state of the registers (rule R112) -/

@[simp] theorem Regs.mix_S (r : Regs g) : r.mix.S = r.S := rfl

@[simp] theorem Regs.mix_L (r : Regs g) : r.mix.L = r.L := rfl

@[simp] theorem Regs.mix_A (r : Regs g) : r.mix.A = r.A := rfl

@[simp] theorem Regs.mix_B (r : Regs g) : r.mix.B = r.B := rfl

@[simp] theorem Regs.mix_si (r : Regs g) : r.mix.si = r.si := rfl

@[simp] theorem Regs.mix_li (r : Regs g) : r.mix.li = r.li := rfl

@[simp] theorem Regs.words_A (r : Regs g) : r.words.A = r.A := rfl

@[simp] theorem Regs.words_B (r : Regs g) : r.words.B = r.B := rfl

/-! ### The state after a reset edge, and its inputs -/

@[simp] theorem State.afterReset_cfg (s : State) : s.afterReset.cfg = s.cfg := rfl

@[simp] theorem State.afterReset_regs (s : State) : s.afterReset.regs = Regs.reset s.cfg := rfl

@[simp] theorem State.afterReset_resetSeen (s : State) : s.afterReset.resetSeen = true := rfl

@[simp] theorem State.afterReset_host (s : State) : s.afterReset.host = s.host.tail := rfl

@[simp] theorem State.now_mk (g : Config) (r : Regs g) (b : Bool) (e : HostEdge g)
    (h : List (HostEdge g)) : State.now ⟨g, r, b, e :: h⟩ = e := rfl

@[simp] theorem State.now_mk_nil (g : Config) (r : Regs g) (b : Bool) :
    State.now ⟨g, r, b, []⟩ = HostEdge.quiet g := rfl

@[simp] theorem HostEdge.quiet_rst : (HostEdge.quiet g).rst = false := rfl

@[simp] theorem HostEdge.quiet_cmdValid : (HostEdge.quiet g).cmdValid = false := rfl

/-- The next edge is the first of the list, and the edges after it are its tail. -/
theorem State.now_eq_of_host (s : State) {e : HostEdge s.cfg} {es : List (HostEdge s.cfg)}
    (h : s.host = e :: es) : s.now = e := by
  unfold State.now; rw [h]; rfl

/-- The next edge is no reset edge if none of the next `n + 1` is. -/
theorem State.NoReset_now (s : State) {n : Nat} (h : ∀ e ∈ s.host.take (n + 1), e.rst = false) :
    s.now.rst = false := by
  unfold State.now
  cases hh : s.host with
  | nil => rfl
  | cons e es => exact h e (by rw [hh]; simp)

/-- The edges after the next one hold no reset edge if none of the next `n + 1` is. -/
theorem State.NoReset_tail (s : State) {n : Nat} (h : ∀ e ∈ s.host.take (n + 1), e.rst = false) :
    ∀ e ∈ s.host.tail.take n, e.rst = false := by
  intro e he
  cases hh : s.host with
  | nil => rw [hh] at he; simp at he
  | cons x es =>
    rw [hh] at he
    exact h e (by rw [hh, List.take_succ_cons]; exact List.mem_cons_of_mem _ he)

end Sys2Proof.Machine
end

