-- ==== Sys2Proof/Laws/Engine.lean ====
section
/-! SUPPORT. What a clock edge can do, runs of engine steps, and the runs the engines make from one
phase to the next. -/

namespace Sys2Proof.Machine

variable {g : Config}

/-! ### The clock edge -/

/-- Everything a clock edge can do (rule R54). -/
theorem State.edgeWith_cases (s : State)
    (cmd : Option (Payload s.cfg → Regs s.cfg → Regs s.cfg)) :
    (s.now.rst = true ∧ s.edgeWith cmd = .next s.afterReset) ∨
    (s.now.rst = false ∧ s.resetSeen = false ∧ s.edgeWith cmd = .refused .beforeFirstReset) ∨
    (s.now.rst = false ∧ s.resetSeen = true ∧ s.regs.phase = .idle ∧
      ((cmd = none ∧ s.edgeWith cmd = .next { s with host := s.host.tail }) ∨
       (∃ acc, cmd = some acc ∧
         s.edgeWith cmd =
           .next { s with regs := acc s.now.payload s.regs, host := s.host.tail }))) ∨
    (s.now.rst = false ∧ s.resetSeen = true ∧ s.regs.phase ≠ .idle ∧
      ((∃ r, s.regs.engineStep = .ok r ∧
         s.edgeWith cmd = .next { s with regs := r, host := s.host.tail }) ∨
       (∃ f, s.regs.engineStep = .error f ∧ s.edgeWith cmd = .fault f))) := by
  unfold State.edgeWith
  by_cases h1 : s.now.rst = true
  · exact .inl ⟨h1, if_pos h1⟩
  · have h1' : s.now.rst = false := by simpa using h1
    rw [if_neg h1]
    by_cases h2 : s.resetSeen = false
    · exact .inr (.inl ⟨h1', h2, if_pos h2⟩)
    · have h2' : s.resetSeen = true := by simpa using h2
      rw [if_neg h2]
      by_cases h3 : s.regs.phase = .idle
      · rw [if_pos h3]
        cases cmd with
        | none => exact .inr (.inr (.inl ⟨h1', h2', h3, .inl ⟨rfl, rfl⟩⟩))
        | some acc => exact .inr (.inr (.inl ⟨h1', h2', h3, .inr ⟨acc, rfl, rfl⟩⟩))
      · rw [if_neg h3]
        cases he : s.regs.engineStep with
        | ok r => exact .inr (.inr (.inr ⟨h1', h2', h3, .inl ⟨r, rfl, rfl⟩⟩))
        | error f => exact .inr (.inr (.inr ⟨h1', h2', h3, .inr ⟨f, rfl, rfl⟩⟩))

theorem State.edgeWith_rst (s : State)
    (cmd : Option (Payload s.cfg → Regs s.cfg → Regs s.cfg)) (h : s.now.rst = true) :
    s.edgeWith cmd = .next s.afterReset := if_pos h

/-- The acceptance edge (rule R55). -/
theorem State.edgeWith_accept (s : State) (acc : Payload s.cfg → Regs s.cfg → Regs s.cfg)
    (h : s.Ready) :
    s.edgeWith (some acc) =
      .next { s with regs := acc s.now.payload s.regs, host := s.host.tail } := by
  unfold State.edgeWith
  rw [if_neg (by simp [h.2.2]), if_neg (by simp [h.1]), if_pos h.2.1]

/-- An edge of a busy core, whatever is presented (rule R56). -/
theorem State.edgeWith_busy (s : State) (cmd : Option (Payload s.cfg → Regs s.cfg → Regs s.cfg))
    {r : Regs s.cfg} (hs : s.resetSeen = true) (hr : s.now.rst = false) (hp : s.regs.phase ≠ .idle)
    (he : s.regs.engineStep = .ok r) :
    s.edgeWith cmd = .next { s with regs := r, host := s.host.tail } := by
  unfold State.edgeWith
  rw [if_neg (by simp [hr]), if_neg (by simp [hs]), if_neg hp, he]

/-! ### Runs of engine steps -/

/-- `n` engine steps lead from `r` to `t`, through busy states. -/
def Regs.RunsTo (r : Regs g) : Nat → Regs g → Prop
  | 0, t => r = t
  | n + 1, t => r.phase ≠ .idle ∧ ∃ q, r.engineStep = .ok q ∧ q.RunsTo n t

theorem Regs.RunsTo.one {r q : Regs g} (hp : r.phase ≠ .idle) (he : r.engineStep = .ok q) :
    r.RunsTo 1 q := ⟨hp, q, he, rfl⟩

theorem Regs.RunsTo.trans {r q t : Regs g} {m n : Nat} (h₁ : r.RunsTo m q) (h₂ : q.RunsTo n t) :
    r.RunsTo (m + n) t := by
  induction m generalizing r with
  | zero => cases h₁; rwa [Nat.zero_add]
  | succ m ih =>
    obtain ⟨hp, x, he, hx⟩ := h₁
    rw [Nat.add_right_comm]
    exact ⟨hp, x, he, ih hx⟩

/-- The first `m` steps of a run of `n` end in a state from which the rest runs. -/
theorem Regs.RunsTo.split {r t : Regs g} {m n : Nat} (h : r.RunsTo n t) (hm : m ≤ n) :
    ∃ q, r.RunsTo m q ∧ q.RunsTo (n - m) t := by
  induction m generalizing r n with
  | zero => exact ⟨r, rfl, h⟩
  | succ m ih =>
    cases n with
    | zero => omega
    | succ n =>
      obtain ⟨hp, x, he, hx⟩ := h
      obtain ⟨q, h1, h2⟩ := ih hx (Nat.le_of_succ_le_succ hm)
      exact ⟨q, ⟨hp, x, he, h1⟩, by rwa [Nat.succ_sub_succ]⟩

/-- A run of engine steps without a reset edge, as clock edges. -/
theorem State.edges_of_runsTo (s : State) {n : Nat} {t : Regs s.cfg} (hs : s.resetSeen = true)
    (hn : s.NoReset n) (h : s.regs.RunsTo n t) :
    s.edges n = .next { s with regs := t, host := s.host.drop n } := by
  induction n generalizing s with
  | zero => cases h; rfl
  | succ n ih =>
    obtain ⟨hp, q, he, hq⟩ := h
    have e := s.edgeWith_busy (if s.now.cmdValid then some (accept s.now.cmdHdr) else none) hs
      (s.NoReset_now hn) hp he
    unfold State.edges State.edge
    rw [e]
    have := ih { s with regs := q, host := s.host.tail } hs (s.NoReset_tail hn) hq
    rw [List.drop_tail] at this
    exact this

/-- A run to the idle phase without a reset edge, as the edges until the core is idle. -/
theorem State.untilIdle_of_runsTo (s : State) {n m : Nat} {t : Regs s.cfg}
    (hs : s.resetSeen = true) (hn : s.NoReset n) (h : s.regs.RunsTo n t) (ht : t.phase = .idle)
    (hm : n ≤ m) : s.untilIdle m = .next { s with regs := t, host := s.host.drop n } := by
  induction n generalizing s m with
  | zero =>
    cases h
    cases m with
    | zero => rfl
    | succ m => unfold State.untilIdle; rw [if_pos ht]; rfl
  | succ n ih =>
    obtain ⟨hp, q, he, hq⟩ := h
    cases m with
    | zero => omega
    | succ m =>
      have e := s.edgeWith_busy (if s.now.cmdValid then some (accept s.now.cmdHdr) else none) hs
        (s.NoReset_now hn) hp he
      unfold State.untilIdle State.edge
      rw [if_neg hp, e]
      have := ih { s with regs := q, host := s.host.tail } hs (s.NoReset_tail hn) hq
        ht (Nat.le_of_succ_le_succ hm)
      rw [List.drop_tail] at this
      exact this

/-- A command on a ready core whose acceptance rule starts a run of `n` steps to the idle phase, `n`
being the steps the sequencer counts from there. -/
theorem State.perform_of_runsTo (s : State) (acc : Payload s.cfg → Regs s.cfg → Regs s.cfg)
    {n : Nat} {t : Regs s.cfg} (hr : s.Ready) (hn : s.NoReset (n + 1))
    (h : (acc s.now.payload s.regs).RunsTo n t) (ht : t.phase = .idle)
    (hl : (acc s.now.payload s.regs).stepsLeft = n) :
    s.perform (some acc) = .next { s with regs := t, host := s.host.drop (n + 1) } := by
  unfold State.perform
  rw [s.edgeWith_accept acc hr]
  have := State.untilIdle_of_runsTo
    { s with regs := acc s.now.payload s.regs, host := s.host.tail } hr.1 (s.NoReset_tail hn) h ht
    (Nat.le_of_eq hl.symm)
  rw [List.drop_tail] at this
  exact this

/-! ### The engine steps of each phase -/

theorem engineStep_ksPack {r : Regs g} (hp : r.phase = .ksPack) : r.engineStep = ksPackStep r := by
  unfold Regs.engineStep; rw [hp]

theorem engineStep_ksInit {r : Regs g} (hp : r.phase = .ksInit) : r.engineStep = ksInitStep r := by
  unfold Regs.engineStep; rw [hp]

theorem engineStep_ksMix {r : Regs g} (hp : r.phase = .ksMix) : r.engineStep = ksMixStep r := by
  unfold Regs.engineStep; rw [hp]

theorem engineStep_ksFinish {r : Regs g} (hp : r.phase = .ksFinish) :
    r.engineStep = ksFinishStep r := by
  unfold Regs.engineStep; rw [hp]

theorem engineStep_encWhiten {r : Regs g} (hp : r.phase = .encWhiten) :
    r.engineStep = encWhitenStep r := by
  unfold Regs.engineStep; rw [hp]

theorem engineStep_encRound {r : Regs g} (hp : r.phase = .encRound) :
    r.engineStep = encRoundStep r := by
  unfold Regs.engineStep; rw [hp]

theorem engineStep_decRound {r : Regs g} (hp : r.phase = .decRound) :
    r.engineStep = decRoundStep r := by
  unfold Regs.engineStep; rw [hp]

theorem engineStep_decUnwhiten {r : Regs g} (hp : r.phase = .decUnwhiten) :
    r.engineStep = decUnwhitenStep r := by
  unfold Regs.engineStep; rw [hp]

theorem engineStep_xfFinish {r : Regs g} (hp : r.phase = .xfFinish) :
    r.engineStep = xfFinishStep r := by
  unfold Regs.engineStep; rw [hp]

theorem engineStep_zz {r : Regs g} (hp : r.phase = .zz) : r.engineStep = zzStep r := by
  unfold Regs.engineStep; rw [hp]

theorem engineStep_err {r : Regs g} (hp : r.phase = .err) : r.engineStep = .ok r.errStep := by
  unfold Regs.engineStep; rw [hp]

/-! ### The runs of the key-schedule engine -/

/-- The `k` KS_PACK steps from counter `k` pack the bytes `k - 1` down to 0 (rule R110). -/
theorem ksPack_runsTo (n : Nat) (r : Regs g) (hp : r.phase = .ksPack) (hk : r.k = n)
    (h0 : 0 < n) (hb : n ≤ g.b) :
    r.RunsTo n { r with L := packDown r.KEY n hb r.L, phase := .ksInit, k := 0 } := by
  induction n generalizing r with
  | zero => omega
  | succ n ih =>
    have hc : 0 < r.k ∧ r.k ≤ g.b := by omega
    refine ⟨by rw [hp]; decide, _,
      (engineStep_ksPack hp).trans (by unfold ksPackStep; rw [dif_pos hc]), ?_⟩
    cases n with
    | zero => simp [Regs.RunsTo, packDown, hk]
    | succ n =>
      have e : ¬ (r.k = 1) := by omega
      simp only [if_neg e]
      have key : ∀ (k : Nat) (h : k - 1 < g.b) (_ : k = n + 2),
          packByte r.KEY r.L ⟨k - 1, h⟩ = packByte r.KEY r.L ⟨n + 1, hb⟩ := by
        rintro k h rfl; rfl
      have := ih
        { r with L := packByte r.KEY r.L ⟨r.k - 1, by omega⟩, phase := .ksPack, k := r.k - 1 }
        rfl (by simp [hk]) (by omega) (by omega)
      simp only [key r.k (by omega) hk] at this ⊢
      exact this

/-- The KS_INIT steps from counter `n` on initialize the words from `n` on (rule R111). -/
theorem ksInit_runsTo (m n : Nat) (r : Regs g) (S₀ : Vector g.Word g.t) (hp : r.phase = .ksInit)
    (hk : r.k = n) (hm : n + (m + 1) = g.t) (hS : r.S = initUp S₀ n (by omega)) :
    r.RunsTo (m + 1) { r with S := initTable g, phase := .ksMix, k := 0 } := by
  induction m generalizing r n with
  | zero =>
    have hc : r.k < g.t := by omega
    have e : r.k + 1 = g.t := by omega
    refine ⟨by rw [hp]; decide, _,
      (engineStep_ksInit hp).trans (by unfold ksInitStep; rw [dif_pos hc]), ?_⟩
    simp only [Regs.RunsTo, e, if_true]
    congr 1
    rw [← initUp_all S₀]
    have e' : g.t = n + 1 := by omega
    simp only [hS, hk]
    have key : ∀ (t' : Nat) (h : t' ≤ g.t) (h' : n + 1 = t'),
        initWord (initUp S₀ n (by omega)) ⟨n, by omega⟩ = initUp S₀ t' h := by
      rintro t' h rfl; rfl
    exact key g.t (Nat.le_refl _) e'.symm
  | succ m ih =>
    have hc : r.k < g.t := by omega
    have e : ¬ (r.k + 1 = g.t) := by omega
    refine ⟨by rw [hp]; decide, _,
      (engineStep_ksInit hp).trans (by unfold ksInitStep; rw [dif_pos hc]), ?_⟩
    simp only [if_neg e]
    have := ih (n + 1) { r with S := initWord r.S ⟨r.k, hc⟩, phase := .ksInit, k := r.k + 1 } rfl
      (by simp [hk]) (by omega) (by simp only [hS, hk]; rfl)
    exact this

/-- The KS_MIX steps from counter `n` on complete the mixing loop (rule R112). -/
theorem ksMix_runsTo (m n : Nat) (r : Regs g) (x : Mix g) (hp : r.phase = .ksMix) (hk : r.k = n)
    (hm : n + (m + 1) = g.nMix) (hx : r.mix = x.times n) :
    r.RunsTo (m + 1)
      { r with
        S := (x.times g.nMix).S, L := (x.times g.nMix).L, A := (x.times g.nMix).A
        B := (x.times g.nMix).B, si := (x.times g.nMix).si, li := (x.times g.nMix).li
        phase := .ksFinish, k := 0 } := by
  induction m generalizing r n with
  | zero =>
    have e : r.k + 1 = g.nMix := by omega
    refine ⟨by rw [hp]; decide, _, (engineStep_ksMix hp).trans rfl, ?_⟩
    have e' : r.mix.next = x.times g.nMix := by rw [hx, ← Mix.times_succ, show n + 1 = g.nMix by omega]
    simp only [Regs.RunsTo, e, if_true, e']
  | succ m ih =>
    have e : ¬ (r.k + 1 = g.nMix) := by omega
    refine ⟨by rw [hp]; decide, _, (engineStep_ksMix hp).trans rfl, ?_⟩
    simp only [if_neg e]
    exact ih (n + 1)
      { r with
        S := r.mix.next.S, L := r.mix.next.L, A := r.mix.next.A, B := r.mix.next.B
        si := r.mix.next.si, li := r.mix.next.li, phase := .ksMix, k := r.k + 1 }
      rfl (by simp [hk]) (by omega) (by rw [Mix.times_succ, ← hx]; rfl)

/-! ### The runs of the transform engines -/

/-- The ENC_ROUND steps from counter `n + 1` on complete the rounds (rule R121). -/
theorem encRound_runsTo (m n : Nat) (r : Regs g) (p : WordPair g) (hp : r.phase = .encRound)
    (hk : r.k = n + 1) (hm : n + (m + 1) = g.r)
    (hw : r.words = encRounds r.S p n (by omega)) :
    r.RunsTo (m + 1)
      { r with
        A := (encRounds r.S p g.r (Nat.le_refl _)).A
        B := (encRounds r.S p g.r (Nat.le_refl _)).B
        phase := .xfFinish, k := 0 } := by
  have key : ∀ (k : Nat) (h : k ≤ g.r) (hk : k = n + 1),
      encRound r.S k h r.words = encRounds r.S p (n + 1) (by omega) := by
    rintro k h rfl; rw [hw]; rfl
  have last : ∀ (n' : Nat) (h : n' ≤ g.r) (e : n' = g.r),
      encRounds r.S p n' h = encRounds r.S p g.r (Nat.le_refl _) := by
    rintro n' h rfl; rfl
  induction m generalizing r n with
  | zero =>
    have hc : r.k ≤ g.r := by omega
    have e : r.k = g.r := by omega
    refine ⟨by rw [hp]; decide, _,
      (engineStep_encRound hp).trans (by unfold encRoundStep; rw [dif_pos hc]), ?_⟩
    simp only [Regs.RunsTo, if_pos e, key r.k hc hk, last (n + 1) (by omega) (by omega)]
  | succ m ih =>
    have hc : r.k ≤ g.r := by omega
    have e : ¬ (r.k = g.r) := by omega
    refine ⟨by rw [hp]; decide, _,
      (engineStep_encRound hp).trans (by unfold encRoundStep; rw [dif_pos hc]), ?_⟩
    simp only [if_neg e]
    have hw' := key r.k hc hk
    refine ih (n + 1)
      { r with A := (encRound r.S r.k hc r.words).A, B := (encRound r.S r.k hc r.words).B,
               phase := .encRound, k := r.k + 1 }
      rfl (by simp [hk]) (by omega) hw' ?_ last
    rintro k h rfl
    show encRound r.S _ _ (encRound r.S r.k hc r.words) = _
    rw [hw']; rfl

/-- The DEC_ROUND steps from counter `n` on undo the rounds `n` down to 1 (rule R129). -/
theorem decRound_runsTo (n : Nat) (r : Regs g) (hp : r.phase = .decRound) (hk : r.k = n)
    (h0 : 0 < n) (hr : n ≤ g.r) :
    r.RunsTo n
      { r with
        A := (decRounds r.S n hr r.words).A, B := (decRounds r.S n hr r.words).B
        phase := .decUnwhiten, k := 0 } := by
  induction n generalizing r with
  | zero => omega
  | succ n ih =>
    have hc : 0 < r.k ∧ r.k ≤ g.r := by omega
    have key : ∀ (k : Nat) (h : k ≤ g.r) (hk : k = n + 1),
        decRound r.S k h r.words = decRound r.S (n + 1) hr r.words := by
      rintro k h rfl; rfl
    refine ⟨by rw [hp]; decide, _,
      (engineStep_decRound hp).trans (by unfold decRoundStep; rw [dif_pos hc]), ?_⟩
    cases n with
    | zero => simp [Regs.RunsTo, decRounds, hk]
    | succ n =>
      have e : ¬ (r.k = 1) := by omega
      simp only [if_neg e]
      have := ih
        { r with A := (decRound r.S r.k hc.2 r.words).A, B := (decRound r.S r.k hc.2 r.words).B,
                 phase := .decRound, k := r.k - 1 }
        rfl (by simp [hk]) (by omega) (by omega)
      have e2 : Regs.words
          { r with A := (decRound r.S r.k hc.2 r.words).A, B := (decRound r.S r.k hc.2 r.words).B,
                   phase := Phase.decRound, k := r.k - 1 } =
          decRound r.S (n + 2) hr r.words := key r.k hc.2 hk
      rw [e2] at this
      exact this

end Sys2Proof.Machine
end

