-- ==== Sys2Proof/Laws/Header.lean ====
section
/-! SUPPORT. The fields of a header. -/

namespace Sys2Proof

theorem hdrOp_append (n : Nat) (op : Byte) : hdrOp (BitVec.ofNat 8 n ++ op) = op := by
  unfold hdrOp; exact BitVec.extractLsb'_append_eq_right

theorem hdrLen_append (n : Nat) (op : Byte) : hdrLen (BitVec.ofNat 8 n ++ op) = n % 256 := by
  have h : (BitVec.ofNat 8 n ++ op : BitVec 16).extractLsb' 8 8 = BitVec.ofNat 8 n :=
    BitVec.extractLsb'_append_eq_left
  unfold hdrLen; rw [h]; simp

theorem hdrLen_lt (h : BitVec 16) : hdrLen h < 256 := by unfold hdrLen; exact BitVec.isLt _

/-- A header is its two fields. -/
theorem hdr_split (h : BitVec 16) : BitVec.ofNat 8 (hdrLen h) ++ hdrOp h = h := by
  unfold hdrLen hdrOp
  rw [BitVec.ofNat_toNat, BitVec.setWidth_eq]
  apply BitVec.eq_of_getLsbD_eq
  intro i hi
  erw [BitVec.getLsbD_append]
  by_cases h8 : i < 8
  · simp [h8]
  · simp [h8, show 8 + (i - 8) = i by omega, show i - 8 < 8 by omega]

end Sys2Proof
end

