-- ==== Sys2Proof/Laws/Commands.lean ====
section
/-! SUPPORT. The acceptance of a command, and the run of engine steps each command makes from there. -/

namespace Sys2Proof.Machine

variable {g : Config}

/-! ### Acceptance and the check (rules R55 and R140) -/

theorem acceptWith_of_ok {op : Byte} {len : Nat} {rule : Regs g → Regs g} {r : Regs g}
    (h : check g op len r.keyValid = .ok) : r.acceptWith op len rule = rule r.clearResponse := by
  unfold Regs.acceptWith; rw [if_pos h]

theorem acceptWith_of_rejected {op : Byte} {len : Nat} {rule : Regs g → Regs g} {r : Regs g}
    (h : check g op len r.keyValid ≠ .ok) :
    r.acceptWith op len rule = r.clearResponse.reject (check g op len r.keyValid) := by
  unfold Regs.acceptWith; rw [if_neg h]

theorem check_keysched (kv : Bool) : check g 0x01 g.b kv = .ok := by simp [check]

theorem check_encrypt : check g 0x02 (2 * g.u) true = .ok := by simp [check, Config.blockBytes]

theorem check_decrypt : check g 0x03 (2 * g.u) true = .ok := by simp [check, Config.blockBytes]

theorem check_zeroize (len : Nat) (kv : Bool) : check g 0x04 len kv = .ok := by simp [check]

/-- A transform passes the check only with the block's length and a valid key (rule R140). -/
theorem check_transform_ok {op : Byte} {len : Nat} {kv : Bool} (ho : op = 0x02 ∨ op = 0x03)
    (h : check g op len kv = .ok) : len = 2 * g.u ∧ kv = true := by
  have hk : op ≠ 0x01 := by rcases ho with rfl | rfl <;> decide
  unfold check at h
  rw [if_neg (by tauto), if_neg (fun e => hk e.1)] at h
  by_cases hl : len = g.blockBytes
  · rw [if_neg (by simp [hl])] at h
    cases kv
    · rw [if_pos ⟨ho, rfl⟩] at h; cases h
    · exact ⟨hl, rfl⟩
  · rw [if_pos ⟨ho, hl⟩] at h; cases h

/-- The header of a command that decodes (rules R77 and R79). -/
theorem decode_ok_fields {h : BitVec 16} {i : Instr} (e : decode h = .ok i) :
    hdrOp h = i.opcode ∧ hdrLen h = i.len := by
  unfold decode at e
  split at e <;> cases e
  all_goals
    rename_i e
    exact ⟨BitVec.eq_of_toNat_eq (by rw [e]; rfl), rfl⟩

/-- A header that does not decode fails the check (rules R83 and R140). -/
theorem decode_error_check {h : BitVec 16} {e : DecodeError} (hd : decode h = .error e) (len : Nat)
    (kv : Bool) : check g (hdrOp h) len kv = .illegalCommand := by
  unfold check
  rw [if_pos]
  rintro (e | e | e | e) <;> (unfold decode at hd; rw [e] at hd; cases hd)

/-- Fewer edges are without a reset edge too. -/
theorem State.NoReset_mono (s : State) {m n : Nat} (h : s.NoReset n) (hm : m ≤ n) :
    s.NoReset m := fun e he => h e ((List.take_sublist_take_left hm).subset he)

/-! ### The run of a rejected command (rules R146 and R147) -/

theorem rejected_runsTo (r : Regs g) (st : Status) :
    (r.clearResponse.reject st).RunsTo 1
      { r with
        rspValid := true, rspStatus := st.code, rspData := zeroBlock g, errc := 0, k := 0
        phase := .idle } :=
  Regs.RunsTo.one (by simp) (engineStep_err rfl)

/-! ### The run of a key schedule (rules R109 to R113) -/

/-- All the KS_PACK steps: none for the empty key (rule R105). -/
theorem ksPack_all (q : Regs g) (hp : q.phase = if 0 < g.b then .ksPack else .ksInit)
    (hk : q.k = g.b) (hL : q.L = Vector.replicate _ 0) :
    q.RunsTo g.b { q with L := packKey q.KEY, phase := .ksInit, k := 0 } := by
  by_cases h : 0 < g.b
  · rw [if_pos h] at hp
    have := ksPack_runsTo g.b q hp hk h (Nat.le_refl _)
    rwa [hL] at this
  · rw [if_neg h] at hp
    have key : ∀ (n : Nat) (hn : n ≤ g.b), n = 0 → q.k = n →
        q.RunsTo n { q with L := packDown q.KEY n hn (Vector.replicate _ 0), phase := .ksInit, k := 0 } := by
      rintro n hn rfl hk
      show q = _
      simp only [packDown, ← hL, ← hp, ← hk]
    exact key g.b (Nat.le_refl _) (by omega) hk

/-- All the KS_INIT steps (rule R111). -/
theorem ksInit_all (q : Regs g) (hp : q.phase = .ksInit) (hk : q.k = 0) :
    q.RunsTo g.t { q with S := initTable g, phase := .ksMix, k := 0 } := by
  have := ksInit_runsTo (g.t - 1) 0 q q.S hp hk (by have := g.t_pos; omega) rfl
  rwa [Nat.sub_add_cancel g.t_pos] at this

/-- All the KS_MIX steps (rule R112). -/
theorem ksMix_all (q : Regs g) (x : Mix g) (hp : q.phase = .ksMix) (hk : q.k = 0) (hx : q.mix = x) :
    q.RunsTo g.nMix
      { q with
        S := (x.times g.nMix).S, L := (x.times g.nMix).L, A := (x.times g.nMix).A
        B := (x.times g.nMix).B, si := (x.times g.nMix).si, li := (x.times g.nMix).li
        phase := .ksFinish, k := 0 } := by
  have := ksMix_runsTo (g.nMix - 1) 0 q x hp hk (by have := nMix_pos g; omega) hx
  rwa [Nat.sub_add_cancel (nMix_pos g)] at this

/-- The run of an accepted KEYSCHED, whatever the registers held (rule R114). -/
theorem keysched_runsTo (p : Payload g) (r : Regs g) :
    (acceptKeysched g.b p r).RunsTo (g.b + g.t + g.nMix + 1)
      (Result.settled
        { S := expand (keyOf p), keyValid := true, status := .ok, data := zeroBlock g }) := by
  unfold acceptKeysched
  rw [acceptWith_of_ok (check_keysched _)]
  exact (((ksPack_all _ rfl rfl rfl).trans (ksInit_all _ rfl rfl)).trans
    (ksMix_all _ (Mix.start (keyOf p)) rfl rfl rfl)).trans
    (Regs.RunsTo.one (by simp) (engineStep_ksFinish rfl))

theorem keysched_stepsLeft (p : Payload g) (r : Regs g) :
    (acceptKeysched g.b p r).stepsLeft = g.b + g.t + g.nMix + 1 := by
  unfold acceptKeysched
  rw [acceptWith_of_ok (check_keysched _)]
  unfold Regs.stepsLeft
  by_cases h : 0 < g.b
  · simp [h]
  · simp [show g.b = 0 by omega]

/-! ### The runs of the block transforms (rules R119 to R122 and R128 to R130) -/

/-- The registers after a transform with result `out`. -/
def Regs.transformed (r : Regs g) (out : Vector Byte g.blockBytes) : Regs g :=
  { r with phase := .idle, k := 0, A := 0, B := 0, errc := 0
           rspValid := true, rspStatus := 0, rspData := out }

/-- All the ENC_ROUND steps: none for `r = 0` (rule R117). -/
theorem encRound_all (q : Regs g) (p : WordPair g)
    (hp : q.phase = if g.r = 0 then .xfFinish else .encRound)
    (hk : q.k = if g.r = 0 then 0 else 1) (hw : q.words = p) :
    q.RunsTo g.r
      { q with
        A := (encRounds q.S p g.r (Nat.le_refl _)).A, B := (encRounds q.S p g.r (Nat.le_refl _)).B
        phase := .xfFinish, k := 0 } := by
  by_cases h : g.r = 0
  · rw [if_pos h] at hp hk
    have key : ∀ (n : Nat) (hn : n ≤ g.r), n = 0 →
        q.RunsTo n
          { q with A := (encRounds q.S p n hn).A, B := (encRounds q.S p n hn).B
                   phase := .xfFinish, k := 0 } := by
      rintro n hn rfl
      show q = _
      simp only [encRounds, ← hw, ← hp, Regs.words_A, Regs.words_B]
      simp only [← hk]
    exact key g.r (Nat.le_refl _) h
  · rw [if_neg h] at hp hk
    have := encRound_runsTo (g.r - 1) 0 q p hp hk (by omega) hw
    rwa [Nat.sub_add_cancel (by omega)] at this

/-- All the DEC_ROUND steps: none for `r = 0` (rule R127). -/
theorem decRound_all (q : Regs g) (hp : q.phase = if 0 < g.r then .decRound else .decUnwhiten)
    (hk : q.k = g.r) :
    q.RunsTo g.r
      { q with
        A := (decRounds q.S g.r (Nat.le_refl _) q.words).A
        B := (decRounds q.S g.r (Nat.le_refl _) q.words).B
        phase := .decUnwhiten, k := 0 } := by
  by_cases h : 0 < g.r
  · rw [if_pos h] at hp
    exact decRound_runsTo g.r q hp hk h (Nat.le_refl _)
  · rw [if_neg h] at hp
    have key : ∀ (n : Nat) (hn : n ≤ g.r), n = 0 → q.k = n →
        q.RunsTo n
          { q with A := (decRounds q.S n hn q.words).A, B := (decRounds q.S n hn q.words).B
                   phase := .decUnwhiten, k := 0 } := by
      rintro n hn rfl hk
      show q = _
      simp only [decRounds, ← hp, ← hk, Regs.words_A, Regs.words_B]
    exact key g.r (Nat.le_refl _) (by omega) hk

/-- The run of an accepted ENCRYPT (rule R123). -/
theorem encrypt_runsTo (p : Payload g) (r : Regs g) (h : r.keyValid = true) :
    (acceptEncrypt (2 * g.u) p r).RunsTo (g.r + 2) (r.transformed (encrypt (blockOf p) r.S)) := by
  unfold acceptEncrypt
  rw [acceptWith_of_ok (by rw [h]; exact check_encrypt), show g.r + 2 = 1 + g.r + 1 by omega]
  exact ((Regs.RunsTo.one (by simp) (engineStep_encWhiten rfl)).trans
    (encRound_all _ (whiten r.S (blockWords (blockOf p))) rfl rfl rfl)).trans
    (Regs.RunsTo.one (by simp) (engineStep_xfFinish rfl))

theorem encrypt_stepsLeft (p : Payload g) (r : Regs g) (h : r.keyValid = true) :
    (acceptEncrypt (2 * g.u) p r).stepsLeft = g.r + 2 := by
  unfold acceptEncrypt
  rw [acceptWith_of_ok (by rw [h]; exact check_encrypt)]; rfl

/-- The run of an accepted DECRYPT (rule R131). -/
theorem decrypt_runsTo (p : Payload g) (r : Regs g) (h : r.keyValid = true) :
    (acceptDecrypt (2 * g.u) p r).RunsTo (g.r + 2) (r.transformed (decrypt (blockOf p) r.S)) := by
  unfold acceptDecrypt
  rw [acceptWith_of_ok (by rw [h]; exact check_decrypt)]
  exact ((decRound_all _ rfl rfl).trans
    (Regs.RunsTo.one (by simp) (engineStep_decUnwhiten rfl))).trans
    (Regs.RunsTo.one (by simp) (engineStep_xfFinish rfl))

theorem decrypt_stepsLeft (p : Payload g) (r : Regs g) (h : r.keyValid = true) :
    (acceptDecrypt (2 * g.u) p r).stepsLeft = g.r + 2 := by
  unfold acceptDecrypt
  rw [acceptWith_of_ok (by rw [h]; exact check_decrypt)]
  unfold Regs.stepsLeft
  by_cases h : 0 < g.r
  · simp [h]
  · simp [show g.r = 0 by omega]

/-- From a legal idle core a transform leaves the settled registers (rule R53). -/
theorem transformed_eq_settled (r : Regs g) (out : Vector Byte g.blockBytes) (hi : r.phase = .idle)
    (hl : r.Legal) :
    r.transformed out =
      Result.settled { S := r.S, keyValid := r.keyValid, status := .ok, data := out } := by
  have hw := hl.2.1
  unfold Regs.WorkingOk at hw
  rw [hi] at hw
  obtain ⟨⟨h1, h2, h3, h4⟩, -⟩ := hw
  have e3 : r.si = ⟨0, g.t_pos⟩ := Fin.ext h3
  have e4 : r.li = ⟨0, g.c_pos⟩ := Fin.ext h4
  simp only [Regs.transformed, Result.settled, Regs.reset, h1, h2, e3, e4]
  rfl

/-! ### The run of ZEROIZE (rule R134) -/

theorem zeroize_runsTo (len : Nat) (p : Payload g) (r : Regs g) :
    (acceptZeroize len p r).RunsTo 1
      (Result.settled
        { S := Vector.replicate _ 0, keyValid := false, status := .ok, data := zeroBlock g }) := by
  unfold acceptZeroize
  rw [acceptWith_of_ok (check_zeroize _ _)]
  exact Regs.RunsTo.one (by simp) (engineStep_zz rfl)

theorem zeroize_stepsLeft (len : Nat) (p : Payload g) (r : Regs g) :
    (acceptZeroize len p r).stepsLeft = 1 := by
  unfold acceptZeroize
  rw [acceptWith_of_ok (check_zeroize _ _)]; rfl

/-! ### Any header -/

theorem latency_of_rejected {op : Byte} {len : Nat} {kv : Bool} (h : check g op len kv ≠ .ok) :
    latency g op len kv = 1 := by unfold latency; rw [if_pos h]

/-- From a legal idle core a rejected command leaves the settled registers (rules R53 and R146). -/
theorem rejected_eq_settled (r : Regs g) (st : Status) (hi : r.phase = .idle) (hl : r.Legal) :
    ({ r with
        rspValid := true, rspStatus := st.code, rspData := zeroBlock g, errc := 0, k := 0
        phase := .idle } : Regs g) = (rejectedResult st r.S r.keyValid).settled := by
  have hw := hl.2.1
  unfold Regs.WorkingOk at hw
  rw [hi] at hw
  obtain ⟨⟨h1, h2, h3, h4⟩, hA, hB, -⟩ := hw
  have e3 : r.si = ⟨0, g.t_pos⟩ := Fin.ext h3
  have e4 : r.li = ⟨0, g.c_pos⟩ := Fin.ext h4
  simp only [rejectedResult, Result.settled, Regs.reset, h1, h2, e3, e4, hA, hB]

/-- The run of a command that fails its check, whichever its own rule is. -/
theorem acceptWith_rejected_runsTo {op : Byte} {len : Nat} (rule : Regs g → Regs g) (r : Regs g)
    (hc : check g op len r.keyValid ≠ .ok) :
    ∃ t : Regs g, (r.acceptWith op len rule).RunsTo 1 t ∧ t.phase = .idle ∧
      (r.acceptWith op len rule).stepsLeft = 1 ∧
      (r.phase = .idle → r.Legal →
        t = (rejectedResult (check g op len r.keyValid) r.S r.keyValid).settled) := by
  rw [acceptWith_of_rejected hc]
  exact ⟨_, rejected_runsTo r _, rfl, rfl, rejected_eq_settled r _⟩

/-- KEYSCHED passes the check with the key's length only (rule R140). -/
theorem check_keysched_ok {len : Nat} {kv : Bool} (h : check g 0x01 len kv = .ok) : len = g.b := by
  unfold check at h
  rw [if_neg (by simp)] at h
  by_cases hl : len = g.b
  · exact hl
  · rw [if_pos ⟨rfl, hl⟩] at h; cases h

/-- Everything an accepted header leads to: a run of as many steps as its latency says, to the idle
phase, and from a legal idle core to the result of the transaction view. -/
theorem accept_runsTo (h : BitVec 16) (p : Payload g) (r : Regs g) :
    ∃ t : Regs g, (accept h p r).RunsTo (latency g (hdrOp h) (hdrLen h) r.keyValid) t ∧
      t.phase = .idle ∧
      (accept h p r).stepsLeft = latency g (hdrOp h) (hdrLen h) r.keyValid ∧
      (r.phase = .idle → r.Legal → t = (commandResult h p r.S r.keyValid).settled) := by
  unfold accept commandResult
  cases hd : decode h with
  | error e =>
    have hc := decode_error_check (g := g) hd (hdrLen h) r.keyValid
    have hne : check g (hdrOp h) (hdrLen h) r.keyValid ≠ .ok := by rw [hc]; decide
    obtain ⟨t, h1, h2, h3, h4⟩ := acceptWith_rejected_runsTo id r hne
    rw [hc] at h4
    rw [latency_of_rejected hne]
    exact ⟨t, h1, h2, h3, h4⟩
  | ok i =>
    obtain ⟨ho, hl⟩ := decode_ok_fields hd
    rw [ho, hl]
    cases i with
    | keysched n =>
      show ∃ t, Regs.RunsTo _ (latency g 0x01 n _) t ∧ _ ∧ _ = latency g 0x01 n _ ∧ _
      dsimp only
      unfold keyschedResult
      by_cases hc : check g 0x01 n r.keyValid = .ok
      · obtain rfl := check_keysched_ok hc
        have hlat : latency g 0x01 g.b r.keyValid = g.b + g.t + g.nMix + 1 := by
          unfold latency; rw [if_neg (not_not.mpr hc)]; rfl
        rw [hlat]
        refine ⟨_, keysched_runsTo p r, rfl, keysched_stepsLeft p r, fun _ _ => ?_⟩
        dsimp only; rw [if_neg (not_not.mpr hc)]
      · rw [latency_of_rejected hc]; dsimp only; rw [if_pos hc]
        exact acceptWith_rejected_runsTo _ r hc
    | encrypt n =>
      show ∃ t, Regs.RunsTo _ (latency g 0x02 n _) t ∧ _ ∧ _ = latency g 0x02 n _ ∧ _
      dsimp only
      unfold encryptResult
      by_cases hc : check g 0x02 n r.keyValid = .ok
      · obtain ⟨rfl, hkv⟩ := check_transform_ok (.inl rfl) hc
        have hlat : latency g 0x02 (2 * g.u) r.keyValid = g.r + 2 := by
          unfold latency; rw [if_neg (not_not.mpr hc)]; rfl
        rw [hlat]
        refine ⟨_, encrypt_runsTo p r hkv, rfl, encrypt_stepsLeft p r hkv, fun hi hl => ?_⟩
        dsimp only; rw [if_neg (not_not.mpr hc)]; exact transformed_eq_settled _ _ hi hl
      · rw [latency_of_rejected hc]; dsimp only; rw [if_pos hc]
        exact acceptWith_rejected_runsTo _ r hc
    | decrypt n =>
      show ∃ t, Regs.RunsTo _ (latency g 0x03 n _) t ∧ _ ∧ _ = latency g 0x03 n _ ∧ _
      dsimp only
      unfold decryptResult
      by_cases hc : check g 0x03 n r.keyValid = .ok
      · obtain ⟨rfl, hkv⟩ := check_transform_ok (.inr rfl) hc
        have hlat : latency g 0x03 (2 * g.u) r.keyValid = g.r + 2 := by
          unfold latency; rw [if_neg (not_not.mpr hc)]; rfl
        rw [hlat]
        refine ⟨_, decrypt_runsTo p r hkv, rfl, decrypt_stepsLeft p r hkv, fun hi hl => ?_⟩
        dsimp only; rw [if_neg (not_not.mpr hc)]; exact transformed_eq_settled _ _ hi hl
      · rw [latency_of_rejected hc]; dsimp only; rw [if_pos hc]
        exact acceptWith_rejected_runsTo _ r hc
    | zeroize n =>
      have hlat : latency g 0x04 n r.keyValid = 1 := by
        unfold latency; rw [if_neg (not_not.mpr (check_zeroize n _))]; rfl
      show ∃ t, Regs.RunsTo _ (latency g 0x04 n _) t ∧ _ ∧ _ = latency g 0x04 n _ ∧ _
      rw [hlat]
      exact ⟨_, zeroize_runsTo n p r, rfl, zeroize_stepsLeft n p r, fun _ _ => rfl⟩

/-- A step performs the acceptance of the presented header, or nothing (rules R54 and R80). -/
theorem step_eq_perform (s : State) :
    step s = s.perform (if s.now.cmdValid then some (accept s.now.cmdHdr) else none) := by
  unfold step
  by_cases hv : s.now.cmdValid = true
  · rw [if_pos hv, if_pos hv]
    have key : ∀ acc : Payload s.cfg → Regs s.cfg → Regs s.cfg,
        (∀ p r, acc p r = accept s.now.cmdHdr p r) →
        s.perform (some acc) = s.perform (some (accept s.now.cmdHdr)) := by
      intro acc h
      rw [show acc = accept s.now.cmdHdr from funext fun p => funext fun r => h p r]
    cases hd : decode s.now.cmdHdr with
    | error e => exact key _ fun p r => by unfold accept; rw [hd]
    | ok i => cases i <;> exact key _ fun p r => by unfold accept; rw [hd]
  · rw [if_neg hv, if_neg hv]; rfl

end Sys2Proof.Machine
end

