-- ==== Sys2Proof/Laws/PerInstr.lean ====
section
/-! SUPPORT. Statements about every command as syntax, one lemma a constructor. -/

/-- A command's header carries its opcode and its LEN (rule R77). -/
def Sys2Proof.Laws.HeaderFields.Statement (i : Sys2Proof.Instr) : Prop :=
  i.wellFormed = true →
    Sys2Proof.hdrOp (Sys2Proof.encode i) = i.opcode ∧ Sys2Proof.hdrLen (Sys2Proof.encode i) = i.len

theorem Sys2Proof.Laws.HeaderFields.keysched (len : Nat) :
    Sys2Proof.Laws.HeaderFields.Statement (.keysched len) := fun h =>
  ⟨Sys2Proof.hdrOp_append _ _,
    (Sys2Proof.hdrLen_append _ _).trans (Nat.mod_eq_of_lt (of_decide_eq_true h))⟩

theorem Sys2Proof.Laws.HeaderFields.encrypt (len : Nat) :
    Sys2Proof.Laws.HeaderFields.Statement (.encrypt len) := fun h =>
  ⟨Sys2Proof.hdrOp_append _ _,
    (Sys2Proof.hdrLen_append _ _).trans (Nat.mod_eq_of_lt (of_decide_eq_true h))⟩

theorem Sys2Proof.Laws.HeaderFields.decrypt (len : Nat) :
    Sys2Proof.Laws.HeaderFields.Statement (.decrypt len) := fun h =>
  ⟨Sys2Proof.hdrOp_append _ _,
    (Sys2Proof.hdrLen_append _ _).trans (Nat.mod_eq_of_lt (of_decide_eq_true h))⟩

theorem Sys2Proof.Laws.HeaderFields.zeroize (len : Nat) :
    Sys2Proof.Laws.HeaderFields.Statement (.zeroize len) := fun h =>
  ⟨Sys2Proof.hdrOp_append _ _,
    (Sys2Proof.hdrLen_append _ _).trans (Nat.mod_eq_of_lt (of_decide_eq_true h))⟩
end

