-- ==== Sys2Proof/Laws/Run.lean ====
section
/-! SUPPORT. What an edge adds to a run, and the runs of edges that engine steps make. -/

namespace Sys2Proof.Machine

@[simp] theorem Progress.after_state (x : Progress) (t : State) : (x.after t).state = t := by
  unfold Progress.after; split_ifs <;> rfl

@[simp] theorem Progress.start_state (s : State) : (Progress.start s).state = s := rfl

@[simp] theorem Progress.start_command (s : State) : (Progress.start s).command = none := rfl

@[simp] theorem Progress.start_observed (s : State) : (Progress.start s).observed = [] := rfl

@[simp] theorem AcceptedCommand.answered_command (c : AcceptedCommand) (t : State) :
    (c.answered t).command = c := rfl

/-- A reset edge abandons the command in progress (rule R158). -/
theorem Progress.after_reset (x : Progress) (t : State) (h : x.state.now.rst = true) :
    x.after t = { state := t, command := none, observed := x.observed } := by
  unfold Progress.after; rw [if_pos h]

/-- An edge of an idle core takes up the presented command. -/
theorem Progress.after_idle (x : Progress) (t : State) (h : x.state.now.rst = false)
    (hi : x.state.regs.phase = .idle) :
    x.after t = { state := t, command := x.state.presented, observed := x.observed } := by
  unfold Progress.after; rw [if_neg (by simp [h]), if_pos hi]

/-- An engine step that is not the last adds nothing. -/
theorem Progress.after_busy (x : Progress) (t : State) (h : x.state.now.rst = false)
    (hi : x.state.regs.phase ≠ .idle) (ht : t.regs.phase ≠ .idle) :
    x.after t = { state := t, command := x.command, observed := x.observed } := by
  unfold Progress.after; rw [if_neg (by simp [h]), if_neg hi, if_neg ht]

/-- A completion edge adds the pair of the command in progress. -/
theorem Progress.after_completion (x : Progress) (t : State) (h : x.state.now.rst = false)
    (hi : x.state.regs.phase ≠ .idle) (ht : t.regs.phase = .idle) :
    x.after t =
      { state := t, command := none
        observed := x.observed ++ (x.command.map fun c => c.answered t).toList } := by
  unfold Progress.after; rw [if_neg (by simp [h]), if_neg hi, if_pos ht]

theorem Progress.edge_of_next (x : Progress) {t : State} (h : x.state.edge = .next t) :
    x.edge = .next (x.after t) := by
  unfold Progress.edge; rw [h]

theorem Progress.edges_succ_of_next (x : Progress) {t : State} (n : Nat)
    (h : x.state.edge = .next t) : x.edges (n + 1) = (x.after t).edges n := by
  conv => lhs; unfold Progress.edges
  rw [x.edge_of_next h]

/-- Edges one after another. -/
theorem Progress.edges_add (x : Progress) (m n : Nat) {y : Progress} (h : x.edges m = .next y) :
    x.edges (m + n) = y.edges n := by
  induction m generalizing x with
  | zero => cases h; rw [Nat.zero_add]
  | succ m ih =>
    rw [Nat.add_right_comm]
    conv => lhs; unfold Progress.edges
    unfold Progress.edges at h
    cases he : x.edge with
    | next z => rw [he] at h; exact ih z h
    | fault f => rw [he] at h; cases h
    | refused q => rw [he] at h; cases h

/-- Observing a run does not change it: the edges of a run answer a next state exactly where the
clock edges do, and the same one. -/
theorem Progress.edges_state (x : Progress) (n : Nat) {t : State} (h : x.state.edges n = .next t) :
    ∃ y : Progress, x.edges n = .next y ∧ y.state = t := by
  induction n generalizing x with
  | zero => cases h; exact ⟨x, rfl, rfl⟩
  | succ n ih =>
    unfold State.edges at h
    cases he : x.state.edge with
    | next z =>
      rw [he] at h
      rw [x.edges_succ_of_next n he]
      exact ih (x.after z) (by rw [Progress.after_state]; exact h)
    | fault f => rw [he] at h; cases h
    | refused q => rw [he] at h; cases h

/-- The clock edge of a busy core that has been reset. -/
theorem State.edge_of_busy (s : State) {r : Regs s.cfg} (hs : s.resetSeen = true)
    (hr : s.now.rst = false) (hp : s.regs.phase ≠ .idle) (he : s.regs.engineStep = .ok r) :
    s.edge = .next { s with regs := r, host := s.host.tail } := s.edgeWith_busy _ hs hr hp he

/-- Engine steps that do not complete the command leave it in progress. -/
theorem Progress.edges_of_runsTo_busy (x : Progress) {n : Nat} {t : Regs x.state.cfg}
    (hs : x.state.resetSeen = true) (hn : x.state.NoReset n) (h : x.state.regs.RunsTo n t)
    (ht : t.phase ≠ .idle) :
    x.edges n = .next { x with
      state := { x.state with regs := t, host := x.state.host.drop n } } := by
  induction n generalizing x with
  | zero => cases h; rfl
  | succ n ih =>
    obtain ⟨hp, q, he, hq⟩ := h
    have hr := x.state.NoReset_now hn
    have e := x.state.edge_of_busy hs hr hp he
    have hqi : q.phase ≠ .idle := by
      cases n with
      | zero => cases hq; exact ht
      | succ n => exact hq.1
    rw [x.edges_succ_of_next n e, x.after_busy _ hr hp hqi]
    have := ih
      { x with state := { x.state with regs := q, host := x.state.host.tail } } hs
      (x.state.NoReset_tail hn) hq ht
    simp only [List.drop_tail] at this
    exact this

/-- Engine steps up to the completion edge observe the command in progress with its response. -/
theorem Progress.edges_of_runsTo_idle (x : Progress) {n : Nat} {t : Regs x.state.cfg}
    (hs : x.state.resetSeen = true) (hn : x.state.NoReset (n + 1))
    (h : x.state.regs.RunsTo (n + 1) t) (ht : t.phase = .idle) :
    x.edges (n + 1) = .next
      { state := { x.state with regs := t, host := x.state.host.drop (n + 1) }
        command := none
        observed := x.observed ++ (x.command.map fun c => c.answered
          { x.state with regs := t, host := x.state.host.drop (n + 1) }).toList } := by
  induction n generalizing x with
  | zero =>
    obtain ⟨hp, q, he, hq⟩ := h
    cases hq
    have hr := x.state.NoReset_now hn
    rw [x.edges_succ_of_next 0 (x.state.edge_of_busy hs hr hp he), x.after_completion _ hr hp ht]
    simp [Progress.edges]
  | succ n ih =>
    obtain ⟨hp, q, he, hq⟩ := h
    have hr := x.state.NoReset_now hn
    rw [x.edges_succ_of_next (n + 1) (x.state.edge_of_busy hs hr hp he),
      x.after_busy _ hr hp hq.1]
    have := ih
      { x with state := { x.state with regs := q, host := x.state.host.tail } } hs
      (x.state.NoReset_tail hn) hq ht
    simp only [List.drop_tail] at this
    exact this

/-- The acceptance edge of a run (rules R55 and R170). -/
theorem Progress.edge_accept (x : Progress) (h : x.state.Ready) (hv : x.state.now.cmdValid = true) :
    x.edge = .next
      { state := { x.state with
          regs := accept x.state.now.cmdHdr x.state.now.payload x.state.regs
          host := x.state.host.tail }
        command := some (acceptedCommand x.state.now.cmdHdr x.state.now.payload)
        observed := x.observed } := by
  have e : x.state.edge = .next { x.state with
      regs := accept x.state.now.cmdHdr x.state.now.payload x.state.regs
      host := x.state.host.tail } := by
    unfold State.edge; rw [if_pos hv]; exact x.state.edgeWith_accept _ h
  rw [x.edge_of_next e, x.after_idle _ h.2.2 h.2.1]
  unfold State.presented; rw [if_pos hv]

end Sys2Proof.Machine
end

