-- ==== Sys2Proof/Tests/Slice0.lean ====
section
/-! SUPPORT. Tests: expected results are the spec's (95_test_vectors.md and the examples of the rules
named), and for every statement with hypotheses a concrete state that meets them all. -/

namespace Sys2Proof.Machine

/-! ### Well-formedness: each check refuses an ill-formed term (rule R77) -/

theorem test_wf_keysched : Instr.wellFormed (.keysched 256) = false ∧
    Instr.wellFormed (.keysched 255) = true := by decide

theorem test_wf_encrypt : Instr.wellFormed (.encrypt 256) = false ∧
    Instr.wellFormed (.encrypt 0) = true := by decide

theorem test_wf_decrypt : Instr.wellFormed (.decrypt 300) = false ∧
    Instr.wellFormed (.decrypt 255) = true := by decide

theorem test_wf_zeroize : Instr.wellFormed (.zeroize 256) = false ∧
    Instr.wellFormed (.zeroize 7) = true := by decide

theorem test_wf_lines :
    HostLine.wellFormed (.keysched (List.replicate 256 0)) = false ∧
    HostLine.wellFormed (.encrypt (List.replicate 256 0)) = false ∧
    HostLine.wellFormed (.decrypt (List.replicate 256 0)) = false ∧
    HostLine.wellFormed (.cmd 256 0 []) = false ∧ HostLine.wellFormed (.cmd 0 256 []) = false ∧
    HostLine.wellFormed (.cmd 255 255 []) = true ∧ HostLine.wellFormed .reset = true := by
  decide +kernel

/-! ### Decoding: headers written bit by bit, LEN then OP (rules R77, R79 and R83) -/

theorem test_decode_keysched : decode 0b00010000_00000001 = .ok (.keysched 16) := by decide

theorem test_decode_encrypt : decode 0b00001000_00000010 = .ok (.encrypt 8) := by decide

theorem test_decode_decrypt : decode 0b00000111_00000011 = .ok (.decrypt 7) := by decide

theorem test_decode_zeroize : decode 0b00000111_00000100 = .ok (.zeroize 7) := by decide

theorem test_decode_reserved :
    decode 0b00000000_00000000 = .error (.reservedOpcode 0) ∧
    decode 0b00001000_00000101 = .error (.reservedOpcode 5) ∧
    decode 0b11111111_11111111 = .error (.reservedOpcode 255) := by decide

/-- The headers the example of rule R86 and program P2 print. -/
theorem test_encode :
    encode (.keysched 16) = 0x1001 ∧ encode (.encrypt 8) = 0x0802 ∧ encode (.decrypt 7) = 0x0703 ∧
    encode (.zeroize 7) = 0x0704 := by decide

theorem test_decode_table_word :
    decodeTableWord 16 0x1001 = some (.keysched 16) ∧ decodeTableWord 8 0x1001 = some (.keysched 0) ∧
    decodeTableWord 16 0x0805 = none ∧ decodeTableWord 24 0x010802 = none := by decide

/-! ### The textual notation (the example of rule R86 and program P2) -/

theorem test_read_line :
    HostLine.read ['E', 'N', 'C', 'R', 'Y', 'P', 'T', ' ', '0', '0', '7', '7'] =
      some (.encrypt [0x00, 0x77]) ∧
    HostLine.read ['C', 'M', 'D', ' ', 'o', 'p', '=', '0', 'x', 'F', 'F', ' ', 'l', 'e', 'n', '=', '2',
      '5', '5', ' ', '-'] = some (.cmd 0xFF 255 []) ∧
    HostLine.read ['K', 'E', 'Y', 'S', 'C', 'H', 'E', 'D', ' ', '-'] = some (.keysched []) ∧
    HostLine.read ['E', 'N', 'C', 'R', 'Y', 'P', 'T', ' ', '0'] = none := by decide +kernel

theorem test_result_text :
    Observation.text { command := { hdr := 0x0802, bytes := [] }, status := 0, data := [0x21, 0xA5] } =
      some ['=', '>', ' ', 'O', 'K', ' ', '2', '1', 'A', '5'] ∧
    Observation.text { command := { hdr := 0x0802, bytes := [] }, status := 4, data := [0, 0] } =
      some ['=', '>', ' ', 'N', 'O', '_', 'K', 'E', 'Y', ' ', '-'] ∧
    Observation.text { command := { hdr := 0x1001, bytes := [] }, status := 0, data := [0, 0] } =
      some ['=', '>', ' ', 'O', 'K', ' ', '-'] := by decide +kernel

/-! ### Instances of the tests -/

/-- RC5-16/0/0. -/
def rc5_16_0_0 : Config := { width := .w16, rounds := 0, keyBytes := 0 }

/-- RC5-16/1/2. -/
def rc5_16_1_2 : Config := { width := .w16, rounds := 1, keyBytes := 2 }

/-- RC5-64/24/24. -/
def rc5_64_24_24 : Config := { width := .w64, rounds := 24, keyBytes := 24 }

/-- The parameters of rules R9 to R15, at RC5-32/12/16 and at the two ends of their ranges. -/
theorem test_parameters :
    rc5_32_12_16.u = 4 ∧ rc5_32_12_16.t = 26 ∧ rc5_32_12_16.c = 4 ∧ rc5_32_12_16.nMix = 78 ∧
    rc5_32_12_16.dmax = 16 ∧ rc5_16_0_0.c = 1 ∧ rc5_16_0_0.t = 2 ∧ rc5_16_0_0.nMix = 6 ∧
    Config.c ⟨.w16, 0, 255⟩ = 128 ∧ Config.c ⟨.w16, 0, 2⟩ = 1 ∧ Config.c ⟨.w16, 0, 3⟩ = 2 ∧
    Config.t ⟨.w16, 255, 255⟩ = 512 ∧ Config.nMix ⟨.w16, 255, 255⟩ = 1536 := by decide

/-! ### Word arithmetic (95_test_vectors.md 3.1 to 3.3) -/

theorem test_rotl :
    rotl (0x1234 : BitVec 16) 1 = 0x2468 ∧ rotl (0x1234 : BitVec 16) 0x10 = 0x1234 ∧
    rotl (0x12345678 : BitVec 32) 0x21 = 0x2468ACF0 ∧
    rotl (0x0123456789ABCDEF : BitVec 64) 0x3F = 0x8091A2B3C4D5E6F7 ∧
    rotlW (g := rc5_16_0_0) 0x1234 0xFFFF = 0x091A := by decide

theorem test_rotr :
    rotr (0x1234 : BitVec 16) 1 = 0x091A ∧ rotr (0x1234 : BitVec 16) 0x10 = 0x1234 ∧
    rotr (0x12345678 : BitVec 32) 0x21 = 0x091A2B3C ∧
    rotr (0x0123456789ABCDEF : BitVec 64) 1 = 0x8091A2B3C4D5E6F7 ∧
    rotrW (g := rc5_16_0_0) 0x1234 0xFFFF = 0x2468 := by decide

theorem test_codec :
    (leDecode (g := rc5_32_12_16) #v[0x01, 0x02, 0x03, 0x04]).toNat = 0x04030201 ∧
    (leEncode (g := rc5_32_12_16) 0xEEDBA521).toList = [0x21, 0xA5, 0xDB, 0xEE] ∧
    (wordFromByte rc5_16_0_0 0xAB).toNat = 0x00AB := by decide

theorem test_packing :
    (packKey (g := ⟨.w32, 0, 5⟩) #v[1, 2, 3, 4, 5]).toList.map BitVec.toNat =
      [0x04030201, 0x00000005] ∧
    (packKey (g := ⟨.w16, 0, 3⟩) #v[0x11, 0x22, 0x33]).toList.map BitVec.toNat = [0x2211, 0x0033] ∧
    (packKey (g := rc5_16_0_0) #v[]).toList.map BitVec.toNat = [0] := by decide

theorem test_initialization :
    (initTable ⟨.w16, 1, 0⟩).toList.map BitVec.toNat = [0xB7E1, 0x5618, 0xF44F, 0x9286] ∧
    (initTable ⟨.w32, 0, 0⟩).toList.map BitVec.toNat = [0xB7E15163, 0x5618CB1C] ∧
    (initTable ⟨.w64, 0, 0⟩).toList.map BitVec.toNat = [0xB7E151628AED2A6B, 0x5618CB1C0A37A680] := by
  decide

/-- The first two mixing iterations of RC5-16/0/0 (95_test_vectors.md 3.5). -/
theorem test_mixing :
    (((Mix.start (g := rc5_16_0_0) #v[]).times 1).A.toNat,
      ((Mix.start (g := rc5_16_0_0) #v[]).times 1).B.toNat) = (0xBF0D, 0xB7E1) ∧
    (((Mix.start (g := rc5_16_0_0) #v[]).times 2).A.toNat,
      ((Mix.start (g := rc5_16_0_0) #v[]).times 2).B.toNat) = (0x6836, 0xFC6B) := by decide

/-- Vector K1, the source's: RC5-32/12/16 with the zero key and block. -/
theorem test_known_answer_w32 :
    (encrypt (g := rc5_32_12_16) (Vector.replicate _ 0) (expand (Vector.replicate _ 0))).toList =
      [0x21, 0xA5, 0xDB, 0xEE, 0x15, 0x4B, 0x8F, 0x6D] := by decide +kernel

/-- Vector K7: RC5-64/24/24. -/
theorem test_known_answer_w64 :
    (encrypt (g := rc5_64_24_24) (Vector.ofFn fun j => BitVec.ofNat 8 j.val)
        (expand (Vector.ofFn fun j => BitVec.ofNat 8 j.val))).toList =
      [0xA4, 0x67, 0x72, 0x82, 0x0E, 0xDB, 0xCE, 0x02,
       0x35, 0xAB, 0xEA, 0x32, 0xAE, 0x71, 0x78, 0xDA] := by decide +kernel

/-! ### States of the tests -/

/-- RC5-16/1/2 with the table of the key `0102` (95_test_vectors.md 3.5), as KEYSCHED leaves it. -/
def loadedRegs : Regs rc5_16_1_2 :=
  { Regs.reset rc5_16_1_2 with
    S := #v[0x71EB, 0x32D1, 0x2AEF, 0xCFC6], keyValid := true, rspValid := true }

/-- The core after reset, with a host that presents one line. -/
def freshWith (g : Config) (l : HostLine) : State := (State.resetOf g).withLine l

/-- The core with the key `0102`, with a host that presents one line. -/
def loadedWith (l : HostLine) : State :=
  { cfg := rc5_16_1_2, regs := loadedRegs, resetSeen := true, host := [l.assemble rc5_16_1_2] }

/-- The table, the status word and the response bytes of an outcome. -/
def shown : Host.Outcome State Fault Refusal → Option (List Nat × Nat × List Nat)
  | .next t =>
    some (t.regs.S.toList.map BitVec.toNat, t.regs.sts.toNat, t.regs.rspData.toList.map BitVec.toNat)
  | .fault _ => none
  | .refused _ => none

/-! ### One step for each kind of command (programs P2, P3 and P5, rows V1, V2 and V18) -/

theorem test_keysched_step :
    shown (step (freshWith rc5_16_1_2 (.keysched [0x01, 0x02]))) =
      some ([0x71EB, 0x32D1, 0x2AEF, 0xCFC6], 0x0006, [0, 0, 0, 0]) := by decide +kernel

theorem test_keysched_length_error_keeps_table :
    shown (step (loadedWith (.keysched [0x01]))) =
      some ([0x71EB, 0x32D1, 0x2AEF, 0xCFC6], 0x0106, [0, 0, 0, 0]) := by decide +kernel

theorem test_encrypt_step :
    shown (step (loadedWith (.encrypt [0x01, 0x02, 0x03, 0x04]))) =
      some ([0x71EB, 0x32D1, 0x2AEF, 0xCFC6], 0x0006, [0x73, 0x7E, 0x00, 0x15]) := by decide +kernel

/-- A length error hides NO_KEY (rule R140). -/
theorem test_encrypt_length_error_hides_no_key :
    shown (step (freshWith rc5_16_1_2 (.encrypt [0x01, 0x02, 0x03]))) =
      some ([0, 0, 0, 0], 0x0204, [0, 0, 0, 0]) := by decide +kernel

theorem test_decrypt_step :
    shown (step (loadedWith (.decrypt [0x01, 0x02, 0x03, 0x04]))) =
      some ([0x71EB, 0x32D1, 0x2AEF, 0xCFC6], 0x0006, [0x4F, 0xC4, 0x4E, 0x65]) := by decide +kernel

theorem test_decrypt_no_key :
    shown (step (freshWith rc5_16_1_2 (.decrypt [0x01, 0x02, 0x03, 0x04]))) =
      some ([0, 0, 0, 0], 0x0404, [0, 0, 0, 0]) := by decide +kernel

theorem test_zeroize_step :
    shown (step (loadedWith .zeroize)) = some ([0, 0, 0, 0], 0x0004, [0, 0, 0, 0]) := by
  decide +kernel

theorem test_zeroize_ignores_len :
    shown (step (loadedWith (.cmd 4 255 [0xFF]))) = some ([0, 0, 0, 0], 0x0004, [0, 0, 0, 0]) := by
  decide +kernel

theorem test_reserved_step :
    shown (step (loadedWith (.cmd 0 0 []))) =
        some ([0x71EB, 0x32D1, 0x2AEF, 0xCFC6], 0x0306, [0, 0, 0, 0]) ∧
      shown (step (loadedWith (.cmd 0xFF 4 [1, 2, 3, 4]))) =
        some ([0x71EB, 0x32D1, 0x2AEF, 0xCFC6], 0x0306, [0, 0, 0, 0]) := by decide +kernel

theorem test_reset_step :
    shown (step (loadedWith .reset)) = some ([0, 0, 0, 0], 0x0000, [0, 0, 0, 0]) := by
  decide +kernel

/-- Edges 2, 3 and 8 of program P5: KS_PACK of byte 1, KS_PACK of byte 0, and the first KS_MIX, under
a host that holds ENCRYPT on the ports. -/
theorem test_edges_of_program_P5 :
    let s : State :=
      { cfg := rc5_16_1_2, regs := Regs.reset rc5_16_1_2, resetSeen := true
        host := HostLine.assemble rc5_16_1_2 (.keysched [1, 2]) ::
          List.replicate 7 (HostLine.assemble rc5_16_1_2 (.encrypt [1, 2, 3, 4])) }
    let view : Host.Outcome State Fault Refusal → Option (Phase × Nat × List Nat) := fun o =>
      match o with
      | .next t => some (t.regs.phase, t.regs.k, [t.regs.A.toNat, t.regs.B.toNat] ++
          t.regs.L.toList.map BitVec.toNat)
      | .fault _ => none
      | .refused _ => none
    view (s.edges 2) = some (.ksPack, 1, [0, 0, 0x0002]) ∧
    view (s.edges 3) = some (.ksInit, 0, [0, 0, 0x0201]) ∧
    view (s.edges 8) = some (.ksMix, 1, [0xBF0D, 0xD821, 0xD821]) := by decide +kernel

/-- The column `cmd_ready` of program P5 at edge 0 (before it no reset edge has happened), at edge 1, and
at edges 2 and 21. -/
theorem test_cmd_ready_of_program_P5 :
    State.cmdReady { loadedWith .reset with resetSeen := false } = some false ∧
    State.cmdReady ((State.resetOf rc5_16_1_2).withLine (.keysched [1, 2])) = some true ∧
    State.cmdReady { loadedWith (.encrypt [1, 2, 3, 4]) with
      regs := { loadedRegs with phase := .ksPack, k := 2 } } = some false ∧
    State.cmdReady (loadedWith (.encrypt [1, 2, 3, 4])) = some true := by decide

/-! ### Runs and programs (rules R86 and R170; programs P3, P5 and P6) -/

/-- The pairs of a run: header, bytes of the command, status and response. -/
def pairs : Host.Outcome Progress Fault Refusal → Option (List (Nat × List Nat × Nat × List Nat))
  | .next y => some (y.observed.map fun o => (o.command.hdr.toNat, o.command.bytes.map BitVec.toNat,
      o.status.toNat, o.data.map BitVec.toNat))
  | .fault _ => none
  | .refused _ => none

/-- The inputs of program P5: reset, KEYSCHED at edge 1, and ENCRYPT held from edge 2 to edge 21. -/
def hostP5 : List (HostEdge rc5_16_1_2) :=
  HostLine.assemble _ .reset :: HostLine.assemble _ (.keysched [1, 2]) ::
    List.replicate 20 (HostLine.assemble _ (.encrypt [1, 2, 3, 4])) ++
    List.replicate 3 (HostEdge.quiet _)

/-- Program P5: the ENCRYPT presented from edge 2 on is accepted at edge 21, "and it was not lost". -/
theorem test_run_of_program_P5 :
    pairs (State.run { loadedWith .reset with host := hostP5 }) =
      some [(0x0201, [1, 2], 0, [0, 0, 0, 0]), (0x0402, [1, 2, 3, 4], 0, [0x73, 0x7E, 0x00, 0x15])] := by
  decide +kernel

/-- As program P6, on RC5-16/1/2: the KEYSCHED abandoned by a reset has no response, and the ENCRYPT
after it reports NO_KEY. -/
theorem test_run_with_abandoned_command :
    pairs (State.run { loadedWith .reset with host :=
        [HostLine.assemble _ .reset, HostLine.assemble _ (.keysched [1, 2]), HostEdge.quiet _,
          HostLine.assemble _ .reset, HostLine.assemble _ (.encrypt [1, 2, 3, 4]),
          HostEdge.quiet _] }) =
      some [(0x0402, [1, 2, 3, 4], 4, [0, 0, 0, 0])] := by decide +kernel

/-- Lines 0 to 3 of program P3. -/
theorem test_program_P3 :
    pairs (runProgram [.reset, .keysched [], .encrypt [0, 0, 0, 0], .encrypt [1, 2, 3, 4]]
        (Progress.start (State.resetOf rc5_16_0_0))) =
      some [(0x0001, [], 0, [0, 0, 0, 0]), (0x0402, [0, 0, 0, 0], 0, [0x65, 0x78, 0xF4, 0x33]),
        (0x0402, [1, 2, 3, 4], 0, [0x66, 0x7A, 0xF7, 0x37])] := by decide +kernel

/-! ### Witnesses: a concrete case that meets the hypotheses of each statement -/

theorem loadedRegs_legal : loadedRegs.Legal := by
  simp [loadedRegs, Regs.Legal, Regs.CounterOk, Regs.WorkingOk, Regs.ScratchZero,
    Regs.KeyScratchZero, Regs.ResponseOk, Regs.ErrcOk, Regs.KeyFlagOk]

/-- The table of `loadedRegs` is the expansion of the key `0102`. -/
theorem loadedRegs_table : loadedRegs.S = expand #v[0x01, 0x02] := by decide +kernel

theorem loadedRegs_tableOk : loadedRegs.TableOk :=
  ⟨fun _ => ⟨_, loadedRegs_table⟩, fun h => nomatch h⟩

theorem resetRegs_legal (g : Config) : (Regs.reset g).Legal := by
  simp [Regs.Legal, Regs.CounterOk, Regs.WorkingOk, Regs.ScratchZero, Regs.KeyScratchZero,
    Regs.ResponseOk, Regs.ErrcOk, Regs.KeyFlagOk]

/-- One line and then quiet is no reset edge for as long as one asks. -/
theorem noReset_of_line (s : State) (e : HostEdge s.cfg) (hh : s.host = [e]) (he : e.rst = false)
    (n : Nat) : s.NoReset n := by
  intro x hx
  have hm := List.mem_of_mem_take hx
  rw [hh, List.mem_singleton] at hm
  rw [hm]; exact he

/-- DerivedParametersInRange: `b = 0` and `0 < b`, with `b` a multiple of `u` and not. -/
theorem witness_DerivedParametersInRange :
    rc5_16_0_0.b = 0 ∧ 0 < rc5_16_1_2.b ∧ 0 < Config.b ⟨.w16, 0, 3⟩ := by decide

/-- The two cases of the rotation amount, at their boundaries. -/
theorem witness_Rotations :
    0 % rc5_16_0_0.w = 0 ∧ 16 % rc5_16_0_0.w = 0 ∧ 15 % rc5_16_0_0.w ≠ 0 ∧
    17 % rc5_16_0_0.w ≠ 0 ∧ 15 < rc5_16_0_0.w := by decide

theorem witness_DecodeEncodeAgree :
    Instr.wellFormed (.keysched 0) = true ∧ Instr.wellFormed (.zeroize 255) = true ∧
    decode 0xFF03 = .ok (.decrypt 255) ∧ decode 0x0001 = .ok (.keysched 0) := by decide

theorem witness_DecoderRefusesExactlyReserved :
    decode 0x0000 = .error (.reservedOpcode (hdrOp 0x0000)) ∧
    decode 0x0005 = .error (.reservedOpcode (hdrOp 0x0005)) ∧
    decode 0xFFFF = .error (.reservedOpcode (hdrOp 0xFFFF)) ∧
    decode 0x0001 = .ok (.keysched 0) ∧ decode 0x0004 = .ok (.zeroize 0) := by decide

/-- Each outcome of the check, and the two priorities of rule R140. -/
theorem witness_CheckGivesFirstCause :
    check rc5_16_1_2 0x00 2 true = .illegalCommand ∧ check rc5_16_1_2 0x05 4 false = .illegalCommand ∧
    check rc5_16_1_2 0x01 1 true = .keyLengthMismatch ∧
    check rc5_16_1_2 0x02 3 false = .blockLengthMismatch ∧ check rc5_16_1_2 0x03 5 true = .blockLengthMismatch ∧
    check rc5_16_1_2 0x02 4 false = .noKey ∧ check rc5_16_1_2 0x03 4 false = .noKey ∧
    check rc5_16_1_2 0x01 2 false = .ok ∧ check rc5_16_1_2 0x02 4 true = .ok ∧
    check rc5_16_1_2 0x04 255 false = .ok := by decide

theorem witness_OverlongLengthsAreRejected :
    rc5_16_0_0.dmax < 5 ∧ (0x01 : Byte).toNat ≠ 4 ∧ check rc5_16_0_0 0x01 5 true ≠ .ok := by decide

/-- Two payloads that agree below LEN = 1 and differ above. -/
theorem witness_PayloadBeyondLenIsIgnored :
    let p : Payload rc5_16_0_0 := #v[1, 2, 3, 4]
    let q : Payload rc5_16_0_0 := #v[1, 9, 9, 9]
    p ≠ q ∧ ∀ (j : Nat) (hj : j < rc5_16_0_0.dmax), j < hdrLen 0x0102 → p[j] = q[j] := by
  refine ⟨fun h => absurd (congrArg Vector.toList h) (by decide), fun j hj hl => ?_⟩
  have h0 : j = 0 := by have : hdrLen 0x0102 = 1 := by decide
                        omega
  subst h0; rfl

/-- Each kind of line with bytes at the two ends of the length, and the two ends of a CMD line. -/
theorem witness_LinesAssembleToHeaderAndPayload :
    (List.replicate 255 (0 : Byte)).length < 256 ∧ ([] : List Byte).length < 256 ∧
    (HostLine.keysched [] = .keysched [] ∧ (1 : Byte) = 1) ∧
    (HostLine.encrypt [1] = .encrypt [1] ∧ (2 : Byte) = 2) ∧
    (HostLine.decrypt [1] = .decrypt [1] ∧ (3 : Byte) = 3) ∧
    (255 : Nat) < 256 ∧ (0 : Nat) < 256 ∧ 0 < rc5_16_0_0.dmax ∧ 0 < ([1] : List Byte).length := by
  decide +kernel

theorem witness_LineTextReadsBack :
    HostLine.wellFormed (.cmd 255 255 [1]) = true ∧ HostLine.wellFormed (.keysched []) = true := by
  decide

theorem witness_ShortZeroKeysShareOneTable :
    rc5_16_0_0.b = 0 ∧ rc5_16_1_2.b ≤ rc5_16_1_2.u ∧ rc5_16_0_0.b ≤ rc5_16_0_0.u := by decide

theorem witness_ZeroRoundsOnlyWhiten : rc5_16_0_0.r = 0 := by decide

/-- KeyschedCompletes and ZeroizeCompletes: a loaded core, and a core just reset. -/
theorem witness_CommandCompletes :
    ((loadedWith (.keysched [1, 2])).Ready ∧ (loadedWith (.keysched [1, 2])).NoReset 2307) ∧
    ((freshWith rc5_16_0_0 .zeroize).Ready ∧ (freshWith rc5_16_0_0 .zeroize).NoReset 2307) :=
  ⟨⟨by decide, noReset_of_line _ _ rfl rfl _⟩, ⟨by decide, noReset_of_line _ _ rfl rfl _⟩⟩

/-- EncryptCompletes, DecryptCompletes, EncryptThenDecryptReturnsBlock and
TransformsLeaveTheRestUnchanged. -/
theorem witness_TransformCompletes :
    (loadedWith (.encrypt [1, 2, 3, 4])).Ready ∧ (loadedWith (.encrypt [1, 2, 3, 4])).Legal ∧
    (loadedWith (.encrypt [1, 2, 3, 4])).regs.keyValid = true ∧
    (loadedWith (.encrypt [1, 2, 3, 4])).NoReset (rc5_16_1_2.r + 3) :=
  ⟨by decide, fun _ => loadedRegs_legal, rfl, noReset_of_line _ _ rfl rfl _⟩

/-- Each of the three rejections a decoded command can meet. -/
theorem witness_RejectedCommandsChangeOnlyResponse :
    (freshWith rc5_16_1_2 (.encrypt [1, 2, 3, 4])).Ready ∧
    (freshWith rc5_16_1_2 (.encrypt [1, 2, 3, 4])).NoReset 2 ∧
    check rc5_16_1_2 (Instr.opcode (.encrypt 4)) 4 false ≠ .ok ∧
    check rc5_16_1_2 (Instr.opcode (.decrypt 3)) 3 false ≠ .ok ∧
    check rc5_16_1_2 (Instr.opcode (.keysched 0)) 0 false ≠ .ok :=
  ⟨by decide, noReset_of_line _ _ rfl rfl _, by decide, by decide, by decide⟩

theorem witness_ReservedCommandsAnswerIllegal :
    (loadedWith (.cmd 0 0 [])).Ready ∧ (loadedWith (.cmd 0 0 [])).NoReset 2 ∧
    (loadedWith (.cmd 0 0 [])).now.cmdValid = true ∧
    (hdrOp (loadedWith (.cmd 0 0 [])).now.cmdHdr).toNat = 0 ∧
    5 ≤ (hdrOp (loadedWith (.cmd 5 8 [])).now.cmdHdr).toNat ∧
    5 ≤ (hdrOp (loadedWith (.cmd 255 0 [])).now.cmdHdr).toNat :=
  ⟨by decide, noReset_of_line _ _ rfl rfl _, by decide, by decide, by decide, by decide⟩

/-- A core in the middle of ENCRYPT, with a host that holds a command and then one that resets. -/
def busyWith (e : HostEdge rc5_16_1_2) : State :=
  { cfg := rc5_16_1_2
    regs := { loadedRegs with phase := .encRound, k := 1, A := 0x73EC, B := 0x36D4, rspValid := false }
    resetSeen := true
    host := [e] }

theorem busyRegs_legal : (busyWith (HostEdge.quiet _)).regs.Legal := by
  simp [busyWith, loadedRegs, Regs.Legal, Regs.CounterOk, Regs.KeyScratchZero, Regs.WorkingOk,
    Regs.ResponseOk, Regs.ErrcOk, Regs.KeyFlagOk]
  decide

/-- BusyCoreDoesNotAccept and BusyEdgeIgnoresCommandInputs: two edges that differ in the command. -/
theorem witness_BusyCore :
    (busyWith (HostLine.assemble _ .zeroize)).regs.phase ≠ .idle ∧
    (HostLine.assemble rc5_16_1_2 .zeroize).rst = (HostEdge.quiet rc5_16_1_2).rst ∧
    HostLine.assemble rc5_16_1_2 .zeroize ≠ HostEdge.quiet rc5_16_1_2 := by decide

theorem witness_AcceptanceClearsResponse :
    (loadedWith (.encrypt [1, 2, 3, 4])).Ready ∧
    (loadedWith (.encrypt [1, 2, 3, 4])).now.cmdValid = true ∧
    (loadedWith (.encrypt [1, 2, 3, 4])).regs.rspValid = true := by decide

theorem witness_IdleEdgeChangesNothing :
    (State.resetOf rc5_16_1_2).Ready ∧ (State.resetOf rc5_16_1_2).now.cmdValid = false := by decide

/-- A reset edge of a busy core, and of a core never reset, with a command presented. -/
theorem witness_ResetEdgeWins :
    (busyWith { HostLine.assemble _ .zeroize with rst := true }).now.rst = true ∧
    ({ busyWith { HostLine.assemble _ .zeroize with rst := true } with
        resetSeen := false } : State).now.rst = true := by decide

theorem witness_UnresetCoreIsRefused :
    let s : State := { loadedWith .zeroize with resetSeen := false }
    s.resetSeen = false ∧ s.now.rst = false := by decide

/-- The three cases of StepRunsDecodedCommand. -/
theorem witness_StepRunsDecodedCommand :
    ((loadedWith .zeroize).now.cmdValid = true ∧
      decode (loadedWith .zeroize).now.cmdHdr = .ok (.zeroize 0)) ∧
    ((loadedWith (.cmd 5 8 [])).now.cmdValid = true ∧
      decode (loadedWith (.cmd 5 8 [])).now.cmdHdr = .error (.reservedOpcode 5)) ∧
    State.reset.now.cmdValid = false := by decide

theorem witness_FetchedWordRunsNext : decodeTableWord 16 0x0003 = some (.decrypt 0) := by decide

/-- LatencyIsExact at `m = 0` and at the latency itself. -/
theorem witness_LatencyIsExact :
    let s := loadedWith (.encrypt [1, 2, 3, 4])
    s.Ready ∧ s.now.cmdValid = true ∧ s.NoReset (0 + 1) ∧ s.NoReset (3 + 1) ∧
    0 ≤ latency s.cfg (hdrOp s.now.cmdHdr) (hdrLen s.now.cmdHdr) s.regs.keyValid ∧
    latency s.cfg (hdrOp s.now.cmdHdr) (hdrLen s.now.cmdHdr) s.regs.keyValid = 3 :=
  ⟨by decide, by decide, noReset_of_line _ _ rfl rfl _, noReset_of_line _ _ rfl rfl _, Nat.zero_le _,
    by decide⟩

/-- The rejected case of LatencyIsExact, and the columns of rule R166. -/
theorem witness_LatencyIsExact_columns :
    check rc5_16_0_0 0x02 3 true ≠ .ok ∧ latency rc5_16_0_0 0x02 3 true = 1 ∧
    latency rc5_16_0_0 0x01 0 false = 9 ∧ latency rc5_32_12_16 0x01 16 false = 121 ∧
    latency rc5_32_12_16 0x02 8 true = 14 := by decide

/-- ResetAbandonsCommand: a KEYSCHED with a reset edge two edges after its acceptance, and one with
a reset edge at the edge that would have completed it. -/
theorem witness_ResetAbandonsCommand :
    let e := HostLine.assemble rc5_16_1_2 (.keysched [1, 2])
    let s : State := { loadedWith .reset with
      host := e :: ([HostEdge.quiet _] ++ HostLine.assemble _ .reset :: []) }
    s.Ready ∧ e.cmdValid = true ∧ (∀ x ∈ [HostEdge.quiet rc5_16_1_2], x.rst = false) ∧
    (HostLine.assemble rc5_16_1_2 .reset).rst = true ∧
    [HostEdge.quiet rc5_16_1_2].length < latency s.cfg (hdrOp e.cmdHdr) (hdrLen e.cmdHdr) true ∧
    (List.replicate 18 (HostEdge.quiet rc5_16_1_2)).length <
      latency s.cfg (hdrOp e.cmdHdr) (hdrLen e.cmdHdr) true := by decide

/-- StepIsClockEdges: a legal state that has been reset and one that has not. -/
theorem witness_StepIsClockEdges :
    (loadedWith .zeroize).Legal ∧ ({ loadedWith .zeroize with resetSeen := false } : State).Legal :=
  ⟨fun _ => loadedRegs_legal, fun h => nomatch h⟩

/-- EngineRefinesTransactionView, with `m` at both ends of its range. -/
theorem witness_EngineRefinesTransactionView :
    let s := loadedWith (.decrypt [1, 2, 3, 4])
    s.Ready ∧ s.Legal ∧ s.now.cmdValid = true ∧
    3 = latency s.cfg (hdrOp s.now.cmdHdr) (hdrLen s.now.cmdHdr) s.regs.keyValid ∧
    s.NoReset (3 + 1) ∧ 0 < 3 ∧ 2 < 3 :=
  ⟨by decide, fun _ => loadedRegs_legal, by decide, by decide, noReset_of_line _ _ rfl rfl _,
    by decide, by decide⟩

/-- StatusIndependentOfData: two cores with different tables whose hosts present different blocks. -/
theorem witness_StatusIndependentOfData :
    let r : Regs rc5_16_1_2 := { loadedRegs with S := #v[1, 2, 3, 4] }
    check rc5_16_1_2 0x04 0 true = check rc5_16_1_2 0x04 255 false ∧
    loadedRegs.control = r.control ∧ loadedRegs ≠ r ∧
    [HostLine.assemble rc5_16_1_2 (.encrypt [1, 2, 3, 4])].map HostEdge.control =
      [HostLine.assemble rc5_16_1_2 (.encrypt [5, 6, 7, 8])].map HostEdge.control := by decide

/-- EdgeKeepsLegal and StepKeepsLegal, on an idle and on a busy core. -/
theorem witness_KeepsLegal :
    ((loadedWith .zeroize).resetSeen = true ∧ (loadedWith .zeroize).regs.Legal) ∧
    ((busyWith (HostEdge.quiet _)).resetSeen = true ∧ (busyWith (HostEdge.quiet _)).regs.Legal) :=
  ⟨⟨rfl, loadedRegs_legal⟩, rfl, busyRegs_legal⟩

/-- EdgeKeepsTable: a loaded core at the acceptance edge of a command. -/
theorem witness_EdgeKeepsTable :
    ∃ t : State, (loadedWith .zeroize).resetSeen = true ∧ (loadedWith .zeroize).regs.Legal ∧
      (loadedWith .zeroize).regs.TableOk ∧ (loadedWith .zeroize).edge = .next t :=
  ⟨_, rfl, loadedRegs_legal, loadedRegs_tableOk, rfl⟩

/-- IdleWorkingStateIsZero, ValidKeyMeansExpandedTable and ResponsesAreWellFormed, on the reset edge
alone: idle, no valid key, no response. -/
theorem witness_AfterReset :
    ∃ t : State, (loadedWith .reset).now.rst = true ∧ (loadedWith .reset).edges (0 + 1) = .next t ∧
      t.regs.phase = .idle ∧ t.regs.keyValid = false ∧ t.regs.rspValid = false :=
  ⟨_, rfl, rfl, rfl, rfl, rfl⟩

/-- The same three, at the end of the KEYSCHED that follows a reset edge: a valid key; and, at the
end of a reserved command that follows one, an error status; and, at its acceptance, busy. -/
theorem witness_AfterResetAndCommand :
    let host : HostLine → List (HostEdge rc5_16_1_2) := fun l =>
      [HostLine.assemble _ .reset, HostLine.assemble _ l]
    let view : Host.Outcome State Fault Refusal → Option (Bool × Bool × Nat) := fun o =>
      match o with
      | .next t => some (t.regs.busy, t.regs.keyValid, t.regs.rspStatus.toNat)
      | .fault _ => none
      | .refused _ => none
    view (State.edges { loadedWith .reset with host := host (.keysched [1, 2]) } (20 + 1)) =
      some (false, true, 0) ∧
    view (State.edges { loadedWith .reset with host := host (.cmd 0 0 []) } (2 + 1)) =
      some (false, false, 3) ∧
    view (State.edges { loadedWith .reset with host := host (.cmd 0 0 []) } (1 + 1)) =
      some (true, false, 0) := by decide +kernel

/-- ConfigurationWordFields: an edge that answers a next state. -/
theorem witness_ConfigurationWordFields :
    ∃ t : State, (loadedWith .zeroize).edge = .next t := ⟨_, rfl⟩

/-- BusesCarryByteLanes: RSP_DATA holds the block of two words. -/
theorem witness_BusesCarryByteLanes :
    ({ loadedRegs with rspData := wordsBlock (g := rc5_16_1_2) ⟨0x7E73, 0x1500⟩ } : Regs _).rspData =
      wordsBlock ⟨0x7E73, 0x1500⟩ := rfl

/-- A run that has one command in progress, the busy core of `busyWith`. -/
def busyRun : Progress :=
  { state := busyWith (HostEdge.quiet _)
    command := some (acceptedCommand (g := rc5_16_1_2) 0x0402 #v[1, 2, 3, 4]), observed := [] }

/-- HeldLineIsAcceptedAndObserved, on a busy and on an idle core. -/
theorem witness_HeldLineIsAcceptedAndObserved :
    (busyRun.state.resetSeen = true ∧ busyRun.state.regs.Legal ∧ HostLine.zeroize ≠ .reset) ∧
    ((Progress.start (loadedWith .zeroize)).state.resetSeen = true ∧
      (Progress.start (loadedWith .zeroize)).state.regs.Legal) :=
  ⟨⟨rfl, busyRegs_legal, nofun⟩, rfl, loadedRegs_legal⟩

/-- Program P5's hold: on a busy core ENCRYPT's own response follows the earlier command's. -/
theorem test_line_on_busy_core :
    pairs (runLine (.encrypt [1, 2, 3, 4]) busyRun) =
      some [(0x0402, [1, 2, 3, 4], 0, [0x73, 0x7E, 0x00, 0x15]),
        (0x0402, [1, 2, 3, 4], 0, [0x73, 0x7E, 0x00, 0x15])] := by decide +kernel

/-- RunObservesEachCompletion, with `m` at both ends of its range, with no reset edge and with one at
edge `m + 1`. -/
theorem witness_RunObservesEachCompletion :
    let x := Progress.start (loadedWith (.encrypt [1, 2, 3, 4]))
    let e := HostLine.assemble rc5_16_1_2 .reset
    let y := Progress.start { loadedWith .reset with
      host := [HostLine.assemble rc5_16_1_2 (.encrypt [1, 2, 3, 4]), e] }
    (x.state.Ready ∧ x.state.Legal ∧ x.state.now.cmdValid = true ∧
      3 = latency x.state.cfg (hdrOp x.state.now.cmdHdr) (hdrLen x.state.now.cmdHdr)
        x.state.regs.keyValid ∧
      0 < 3 ∧ 2 < 3 ∧ x.state.NoReset (0 + 1) ∧ x.state.NoReset (2 + 1) ∧ x.state.NoReset (3 + 1)) ∧
    (y.state.Ready ∧ y.state.Legal ∧ y.state.now.cmdValid = true ∧ y.state.NoReset (0 + 1) ∧
      y.state.host[0 + 1]? = some e ∧ e.rst = true) :=
  ⟨⟨by decide, fun _ => loadedRegs_legal, by decide, by decide, by decide, by decide,
      noReset_of_line _ _ rfl rfl _, noReset_of_line _ _ rfl rfl _, noReset_of_line _ _ rfl rfl _⟩,
    by decide, fun _ => loadedRegs_legal, by decide, by decide, rfl, rfl⟩

/-- RunEndsWhenNothingIsInProgress: a run of one reset edge, its end, and a run that has not ended
because a command is in progress. -/
theorem witness_RunEndsWhenNothingIsInProgress :
    (loadedWith .reset).StartsRun ∧
    (∃ y : Progress, (Progress.start (loadedWith .reset)).edges (0 + 1) = .next y ∧
      y.state.resetSeen = true ∧ y.Ended) ∧ ¬ busyRun.Ended :=
  ⟨rfl, ⟨_, rfl, rfl, rfl, fun _ h => absurd h List.not_mem_nil⟩, fun h => absurd h.1 (by decide)⟩

/-- CommandReadyFollowsPhaseAndReset: each clause, `rst = 1` on a core reset and on one that is not. -/
theorem witness_CommandReadyFollowsPhaseAndReset :
    let unreset : HostLine → State := fun l => { loadedWith l with resetSeen := false }
    ((unreset .reset).now.rst = true ∧ (loadedWith .reset).now.rst = true) ∧
    ((loadedWith .zeroize).now.rst = false ∧ (loadedWith .zeroize).resetSeen = true) ∧
    ((unreset .zeroize).now.rst = false ∧ (unreset .zeroize).resetSeen = false) ∧
    ((loadedWith .zeroize).cmdReady = some true ∧ (loadedWith .zeroize).now.cmdValid = true) ∧
    ((busyWith (HostEdge.quiet _)).cmdReady = some false ∧
      (busyWith (HostEdge.quiet _)).now.rst = false ∧
      (HostLine.assemble rc5_16_1_2 .zeroize).rst = false) := by decide

end Sys2Proof.Machine
end

section
/-! The derived parameters of an instance and their ranges (00_scope.md, rules R4 to R13). -/

namespace Sys2Proof.Config

theorem r_le (g : Config) : g.r ≤ 255 := Nat.le_of_lt_succ g.rounds.isLt

theorem b_le (g : Config) : g.b ≤ 255 := Nat.le_of_lt_succ g.keyBytes.isLt

theorem c_of_b_eq_zero (g : Config) (hb : g.b = 0) : g.c = 1 := if_pos hb

/-- The words of a nonempty key are the least number that holds its bytes (rule R11). -/
theorem c_le_iff (g : Config) (hb : 0 < g.b) (n : Nat) : g.c ≤ n ↔ g.b ≤ n * g.u := by
  have hc : g.c = g.b ⌈/⌉ g.u := by rw [c, if_neg hb.ne', Nat.ceilDiv_eq_add_pred_div]
  rw [hc, ceilDiv_le_iff_le_mul g.u_pos, Nat.mul_comm]

theorem b_le_c_mul_u (g : Config) (hb : 0 < g.b) : g.b ≤ g.c * g.u := (g.c_le_iff hb _).mp le_rfl

theorem pred_c_mul_u_lt_b (g : Config) (hb : 0 < g.b) : (g.c - 1) * g.u < g.b := by
  rw [← not_le, ← g.c_le_iff hb]
  exact (Nat.sub_one_lt_of_lt g.c_pos).not_ge

theorem u_dvd_256 (g : Config) : g.u ∣ 256 := by
  rw [u]
  rcases Machine.w_cases g with h | h | h <;> rw [h] <;> decide

/-- The three ranges of rule R11 in one inequality. Whole words fill 256 bytes exactly, so at most
that many are needed for a key shorter than 256 bytes. -/
theorem c_mul_w_le (g : Config) : g.c * g.w ≤ 2048 := by
  obtain ⟨q, hq⟩ := g.u_dvd_256
  rw [Nat.mul_comm] at hq
  have hcq : g.c ≤ q := by
    obtain hb | hb := Nat.eq_zero_or_pos g.b
    · rw [g.c_of_b_eq_zero hb]
      exact Nat.pos_of_ne_zero fun h => by simp [h] at hq
    · rw [g.c_le_iff hb, ← hq]
      exact g.b_le.trans (by decide)
  calc g.c * g.w = 8 * (g.c * g.u) := by rw [Machine.w_eq, Nat.mul_left_comm]
    _ ≤ 8 * (q * g.u) := by gcongr
    _ = 2048 := by rw [← hq]

theorem c_le (g : Config) : g.c ≤ 128 := by
  have hw : 16 ≤ g.w := by rcases Machine.w_cases g with h | h | h <;> omega
  have : g.c * 16 ≤ 2048 := (Nat.mul_le_mul_left _ hw).trans g.c_mul_w_le
  omega

theorem t_le (g : Config) : g.t ≤ 512 := by
  have := g.r_le
  unfold t
  omega

theorem nMix_bounds (g : Config) : 6 ≤ g.nMix ∧ g.nMix ≤ 1536 := by
  have h1t := g.one_lt_t
  have ht := g.t_le
  have hc := g.c_le
  unfold nMix
  omega

end Sys2Proof.Config

namespace Sys2Proof.Machine

/-- Settles O1, from the bounds of `r` and `b` and the reading of `c` as a least number of words. -/
theorem derivedParametersInRange : Obligations.DerivedParametersInRange := by
  intro g
  exact ⟨w_cases g, g.r_le, g.b_le, (w_eq g).symm, ⟨rfl, g.one_lt_t, g.t_le⟩, g.c_of_b_eq_zero,
    fun hb => ⟨g.pred_c_mul_u_lt_b hb, g.b_le_c_mul_u hb⟩, ⟨g.c_pos, g.c_mul_w_le⟩,
    ⟨rfl, g.nMix_bounds⟩, two_pow_lgw g⟩

end Sys2Proof.Machine
end

section
/-! What the invariants say of each phase: registers are legal, and hold their part of the table,
exactly when the phase's own conditions hold. -/

namespace Sys2Proof.Machine

variable {g : Config}

/-- The phases of a key schedule (rules R110 to R113). -/
@[simp] def Phase.inKeysched : Phase → Bool
  | .ksPack | .ksInit | .ksMix | .ksFinish => true
  | _ => false

/-- The phases of a block transform (rules R119 to R122 and R128 to R130). -/
@[simp] def Phase.inTransform : Phase → Bool
  | .encWhiten | .encRound | .decRound | .decUnwhiten | .xfFinish => true
  | _ => false

theorem Phase.inKeysched_of_inTransform {p : Phase} (h : p.inTransform = true) :
    p.inKeysched = false := by
  cases p <;> simp at h ⊢

/-! ### Legal registers -/

/-- No response stands (rules R42, R43 and R49). -/
def Regs.NoResponse (r : Regs g) : Prop :=
  r.rspValid = false ∧ r.rspStatus = 0 ∧ r.rspData = zeroBlock g

/-- A busy core shows no response, and nothing else is asked of its response registers. -/
theorem responseOk_iff_noResponse {r : Regs g} (hi : r.phase ≠ .idle) :
    r.ResponseOk ↔ r.NoResponse := by
  constructor
  · rintro ⟨hbusy, hnone, -, -⟩
    exact ⟨hbusy hi, hnone (hbusy hi)⟩
  · rintro ⟨hv, hs, hd⟩
    exact ⟨fun _ => hv, fun _ => ⟨hs, hd⟩, fun _ => hd, by simp [hs]⟩

/-- Legality in a phase that is neither IDLE nor ERR. -/
theorem legal_iff_of_engine {r : Regs g} (hi : r.phase ≠ .idle) (he : r.phase ≠ .err) :
    r.Legal ↔ r.CounterOk ∧ r.WorkingOk ∧ (r.NoResponse ∧ r.errc = 0) ∧ r.KeyFlagOk := by
  have herr : r.ErrcOk ↔ r.errc = 0 :=
    ⟨fun h => h.2 he, fun hz => ⟨fun h => absurd h he, fun _ => hz⟩⟩
  rw [Regs.Legal, responseOk_iff_noResponse hi, herr, and_assoc]

theorem legal_ksPack {r : Regs g} (hp : r.phase = .ksPack) :
    r.Legal ↔ (0 < r.k ∧ r.k ≤ g.b) ∧ (r.A = 0 ∧ r.B = 0 ∧ r.si.val = 0 ∧ r.li.val = 0) ∧
      (r.NoResponse ∧ r.errc = 0) ∧ r.keyValid = false := by
  simp [legal_iff_of_engine, Regs.CounterOk, Regs.WorkingOk, Regs.KeyFlagOk, hp]

theorem legal_ksInit {r : Regs g} (hp : r.phase = .ksInit) :
    r.Legal ↔ r.k < g.t ∧ (r.A = 0 ∧ r.B = 0 ∧ r.si.val = 0 ∧ r.li.val = 0) ∧
      (r.NoResponse ∧ r.errc = 0) ∧ r.keyValid = false := by
  simp [legal_iff_of_engine, Regs.CounterOk, Regs.WorkingOk, Regs.KeyFlagOk, hp]

theorem legal_ksMix {r : Regs g} (hp : r.phase = .ksMix) :
    r.Legal ↔ r.k < g.nMix ∧ (r.NoResponse ∧ r.errc = 0) ∧ r.keyValid = false := by
  simp [legal_iff_of_engine, Regs.CounterOk, Regs.WorkingOk, Regs.KeyFlagOk, hp]

theorem legal_ksFinish {r : Regs g} (hp : r.phase = .ksFinish) :
    r.Legal ↔ r.k = 0 ∧ (r.NoResponse ∧ r.errc = 0) ∧ r.keyValid = false := by
  simp [legal_iff_of_engine, Regs.CounterOk, Regs.WorkingOk, Regs.KeyFlagOk, hp]

/-- The five phases of a block transform differ in the range of the counter only. -/
theorem legal_transform {r : Regs g} (hp : r.phase.inTransform = true) :
    r.Legal ↔ r.CounterOk ∧ r.KeyScratchZero ∧ (r.NoResponse ∧ r.errc = 0) ∧
      r.keyValid = true := by
  cases h : r.phase <;> simp [h] at hp <;>
    simp [legal_iff_of_engine, Regs.CounterOk, Regs.WorkingOk, Regs.KeyFlagOk, h]

theorem legal_zz {r : Regs g} (hp : r.phase = .zz) :
    r.Legal ↔ r.k = 0 ∧ (r.KeyScratchZero ∧ r.A = 0 ∧ r.B = 0) ∧ r.NoResponse ∧ r.errc = 0 := by
  simp [legal_iff_of_engine, Regs.CounterOk, Regs.WorkingOk, Regs.KeyFlagOk, hp]

theorem legal_err {r : Regs g} (hp : r.phase = .err) :
    r.Legal ↔ r.k = 0 ∧ (r.KeyScratchZero ∧ r.A = 0 ∧ r.B = 0) ∧ r.NoResponse ∧
      1 ≤ r.errc.toNat ∧ r.errc.toNat ≤ 4 := by
  rw [Regs.Legal, responseOk_iff_noResponse (by simp [hp])]
  simp [Regs.CounterOk, Regs.WorkingOk, Regs.ErrcOk, Regs.KeyFlagOk, hp]

/-- The invariant of rule R53. -/
theorem Regs.Legal.scratchZero {r : Regs g} (hl : r.Legal) (hi : r.phase = .idle) :
    r.ScratchZero := by
  obtain ⟨-, hw, -⟩ := hl
  simpa [Regs.WorkingOk, hi] using hw

theorem Regs.Legal.noResponse {r : Regs g} (hl : r.Legal) (hi : r.phase ≠ .idle) :
    r.NoResponse := by
  obtain ⟨-, -, hr, -⟩ := hl
  exact (responseOk_iff_noResponse hi).mp hr

/-- A completion with the working state erased is legal (rule R57). -/
theorem complete_legal {st : Byte} {d : Vector Byte g.blockBytes} {r : Regs g}
    (hw : r.KeyScratchZero ∧ r.A = 0 ∧ r.B = 0) (hst : st.toNat ≤ 4)
    (hd : st ≠ 0 → d = zeroBlock g) : (r.complete st d).Legal := by
  obtain ⟨hkey, hA, hB⟩ := hw
  exact ⟨rfl, ⟨hkey, hA, hB, rfl, rfl⟩, ⟨fun h => absurd rfl h, nofun, hd, hst⟩,
    ⟨nofun, fun _ => rfl⟩, trivial⟩

theorem eraseScratch_zero (r : Regs g) :
    r.eraseScratch.KeyScratchZero ∧ r.eraseScratch.A = 0 ∧ r.eraseScratch.B = 0 :=
  ⟨⟨rfl, rfl, rfl, rfl⟩, rfl, rfl⟩

/-- The code of an error status is one `errc` may hold. -/
theorem Status.code_bounds {st : Status} (h : st ≠ .ok) :
    1 ≤ st.code.toNat ∧ st.code.toNat ≤ 4 := by
  cases st
  case ok => exact absurd rfl h
  all_goals decide

/-! ### The table -/

/-- What the table holds outside a key schedule (rule R40). -/
def Regs.TableSettled (r : Regs g) : Prop :=
  (r.keyValid = true → ∃ key : Vector Byte g.b, r.S = expand key) ∧
  (r.keyValid = false → r.S = Vector.replicate _ 0)

theorem tableOk_iff_settled {r : Regs g} (hp : r.phase.inKeysched = false) :
    r.TableOk ↔ r.TableSettled := by
  unfold Regs.TableOk
  cases h : r.phase <;> simp [h] at hp <;> rfl

/-- Between phases outside a key schedule the table invariant goes over with `S` and `key_valid`. -/
theorem Regs.TableOk.of_same_table {r q : Regs g} (ht : r.TableOk)
    (hr : r.phase.inKeysched = false) (hq : q.phase.inKeysched = false)
    (hsame : (q.S, q.keyValid) = (r.S, r.keyValid)) : q.TableOk := by
  simp only [Prod.mk.injEq] at hsame
  rw [tableOk_iff_settled hq, Regs.TableSettled, hsame.1, hsame.2]
  exact (tableOk_iff_settled hr).mp ht

theorem tableOk_ksPack {r : Regs g} (hp : r.phase = .ksPack) :
    r.TableOk ↔ ∃ h : r.k ≤ g.b, packDown r.KEY r.k h r.L = packKey r.KEY := by
  unfold Regs.TableOk; rw [hp]

theorem tableOk_ksInit {r : Regs g} (hp : r.phase = .ksInit) :
    r.TableOk ↔ r.L = packKey r.KEY ∧
      ∃ (h : r.k ≤ g.t) (S₀ : Vector g.Word g.t), r.S = initUp S₀ r.k h := by
  unfold Regs.TableOk; rw [hp]

theorem tableOk_ksMix {r : Regs g} (hp : r.phase = .ksMix) :
    r.TableOk ↔ r.mix = (Mix.start r.KEY).times r.k := by
  unfold Regs.TableOk; rw [hp]

theorem tableOk_ksFinish {r : Regs g} (hp : r.phase = .ksFinish) :
    r.TableOk ↔ r.S = expand r.KEY := by
  unfold Regs.TableOk; rw [hp]

/-- While `key_valid` is 1 the table is an expansion: no key schedule is in progress. -/
theorem Regs.Legal.table_of_keyValid {r : Regs g} (hl : r.Legal) (ht : r.TableOk)
    (hv : r.keyValid = true) : ∃ key : Vector Byte g.b, r.S = expand key := by
  obtain ⟨-, -, -, -, hk⟩ := hl
  have hp : r.phase.inKeysched = false := by
    cases h : r.phase <;> simp [Regs.KeyFlagOk, h, hv] at hk ⊢
  exact ((tableOk_iff_settled hp).mp ht).1 hv

/-! ### The loops of `expand`, one step on -/

theorem packDown_of_eq_zero (key : Vector Byte g.b) {n : Nat} (hn : n = 0) (h : n ≤ g.b)
    (L : Vector g.Word g.c) : packDown key n h L = L := by
  subst hn; rfl

theorem packDown_packByte (key : Vector Byte g.b) {n : Nat} (hn : 0 < n) (h : n ≤ g.b)
    (L : Vector g.Word g.c) :
    packDown key (n - 1) (by omega) (packByte key L ⟨n - 1, by omega⟩) = packDown key n h L := by
  cases n with
  | zero => omega
  | succ n => rfl

theorem initUp_of_eq_zero (S : Vector g.Word g.t) {n : Nat} (hn : n = 0) (h : n ≤ g.t) :
    initUp S n h = S := by
  subst hn; rfl

theorem initUp_of_eq_t (S : Vector g.Word g.t) {n : Nat} (hn : n = g.t) (h : n ≤ g.t) :
    initUp S n h = initTable g := by
  subst hn; exact initUp_all S

end Sys2Proof.Machine
end

section
/-! What an engine step does to a legal busy core, phase by phase (rule R56). -/

namespace Sys2Proof.Machine

variable {g : Config}

/-- The engine step of `r` answers `q`, keeps the invariants, and brings the completion nearer by
one step. -/
structure Regs.Advances (r q : Regs g) : Prop where
  step : r.engineStep = .ok q
  legal : q.Legal
  nearer : q.stepsLeft + 1 = r.stepsLeft
  table : r.TableOk → q.TableOk

/-! ### The key schedule -/

theorem ksPack_advances {r : Regs g} (hp : r.phase = .ksPack) (hl : r.Legal) :
    ∃ q, r.Advances q := by
  obtain ⟨hc, hw, hs, hk⟩ := (legal_ksPack hp).mp hl
  have hstep := (engineStep_ksPack hp).trans (dif_pos hc)
  have hpack (ht : r.TableOk) : packDown r.KEY (r.k - 1) (by omega)
      (packByte r.KEY r.L ⟨r.k - 1, by omega⟩) = packKey r.KEY := by
    obtain ⟨h, hL⟩ := (tableOk_ksPack hp).mp ht
    exact (packDown_packByte r.KEY hc.1 h r.L).trans hL
  by_cases h1 : r.k = 1
  · have h0 : r.k - 1 = 0 := by omega
    refine ⟨_, hstep, (legal_ksInit (if_pos h1)).mpr ⟨by simp [h0, g.t_pos], hw, hs, hk⟩,
      by simp [Regs.stepsLeft, hp, h1]; omega, fun ht => (tableOk_ksInit (if_pos h1)).mpr ?_⟩
    exact ⟨(packDown_of_eq_zero _ h0 _ _).symm.trans (hpack ht), by simp [h0], r.S,
      (initUp_of_eq_zero _ h0 _).symm⟩
  · exact ⟨_, hstep, (legal_ksPack (if_neg h1)).mpr ⟨by dsimp only; omega, hw, hs, hk⟩,
      by simp [Regs.stepsLeft, hp, h1]; omega,
      fun ht => (tableOk_ksPack (if_neg h1)).mpr ⟨_, hpack ht⟩⟩

theorem ksInit_advances {r : Regs g} (hp : r.phase = .ksInit) (hl : r.Legal) :
    ∃ q, r.Advances q := by
  obtain ⟨hc, hw, hs, hk⟩ := (legal_ksInit hp).mp hl
  have hstep := (engineStep_ksInit hp).trans (dif_pos hc)
  have hinit (ht : r.TableOk) : r.L = packKey r.KEY ∧
      ∃ S₀, initWord r.S ⟨r.k, hc⟩ = initUp S₀ (r.k + 1) hc := by
    obtain ⟨hL, _, S₀, hS⟩ := (tableOk_ksInit hp).mp ht
    exact ⟨hL, S₀, by rw [hS]; rfl⟩
  by_cases h1 : r.k + 1 = g.t
  · refine ⟨_, hstep, (legal_ksMix (if_pos h1)).mpr ⟨by simp [h1, nMix_pos], hs, hk⟩,
      by simp [Regs.stepsLeft, hp, h1]; omega, fun ht => (tableOk_ksMix (if_pos h1)).mpr ?_⟩
    obtain ⟨hL, S₀, hS⟩ := hinit ht
    obtain ⟨hA, hB, hsi, hli⟩ := hw
    simp only [if_pos h1, Mix.times_zero, Regs.mix, Mix.start, hS, initUp_of_eq_t S₀ h1, hL, hA, hB,
      Fin.ext_iff, Mix.mk.injEq, hsi, hli, and_self]
  · refine ⟨_, hstep, (legal_ksInit (if_neg h1)).mpr ⟨by simp only [if_neg h1]; omega, hw, hs, hk⟩,
      by simp [Regs.stepsLeft, hp, h1]; omega, fun ht => (tableOk_ksInit (if_neg h1)).mpr ?_⟩
    simpa only [if_neg h1] using ⟨(hinit ht).1, hc, (hinit ht).2⟩

theorem ksMix_advances {r : Regs g} (hp : r.phase = .ksMix) (hl : r.Legal) :
    ∃ q, r.Advances q := by
  obtain ⟨hc, hs, hk⟩ := (legal_ksMix hp).mp hl
  have hstep := engineStep_ksMix hp
  have hmix (ht : r.TableOk) : r.mix.next = (Mix.start r.KEY).times (r.k + 1) := by
    rw [Mix.times_succ, ← (tableOk_ksMix hp).mp ht]
  by_cases h1 : r.k + 1 = g.nMix
  · refine ⟨_, hstep, (legal_ksFinish (if_pos h1)).mpr ⟨if_pos h1, hs, hk⟩,
      by simp [Regs.stepsLeft, hp, h1]; omega, fun ht => (tableOk_ksFinish (if_pos h1)).mpr ?_⟩
    rw [expand, ← h1, ← hmix ht]
  · refine ⟨_, hstep, (legal_ksMix (if_neg h1)).mpr ⟨by simp only [if_neg h1]; omega, hs, hk⟩,
      by simp [Regs.stepsLeft, hp, h1]; omega, fun ht => (tableOk_ksMix (if_neg h1)).mpr ?_⟩
    simp only [if_neg h1]
    exact hmix ht

theorem ksFinish_advances {r : Regs g} (hp : r.phase = .ksFinish) : ∃ q, r.Advances q := by
  refine ⟨_, engineStep_ksFinish hp,
    complete_legal (eraseScratch_zero r) (by decide) (absurd rfl ·),
    by simp [Regs.stepsLeft, hp], fun ht => (tableOk_iff_settled (by simp)).mpr ?_⟩
  exact ⟨fun _ => ⟨r.KEY, (tableOk_ksFinish hp).mp ht⟩, nofun⟩

/-! ### The block transforms -/

/-- A step of a transform that goes on to another of its phases leaves table and key buffers as they
were; what is to be shown is the counter. -/
theorem advances_of_transform {r q : Regs g} (hp : r.phase.inTransform = true)
    (hq : q.phase.inTransform = true) (hl : r.Legal) (hstep : r.engineStep = .ok q)
    (hsame : q = { r with A := q.A, B := q.B, k := q.k, phase := q.phase })
    (hc : q.CounterOk) (hn : q.stepsLeft + 1 = r.stepsLeft) : r.Advances q := by
  obtain ⟨-, hw, hs, hk⟩ := (legal_transform hp).mp hl
  refine ⟨hstep, (legal_transform hq).mpr ⟨hc, ?_⟩, hn, fun ht => ?_⟩
  · rw [hsame]
    exact ⟨hw, hs, hk⟩
  · exact ht.of_same_table (Phase.inKeysched_of_inTransform hp)
      (Phase.inKeysched_of_inTransform hq) (by rw [hsame])

theorem encWhiten_advances {r : Regs g} (hp : r.phase = .encWhiten) (hl : r.Legal) :
    ∃ q, r.Advances q := by
  have hc : r.k = 0 := by simpa [Regs.CounterOk, hp] using hl.1
  have hstep := engineStep_encWhiten hp
  by_cases h : g.r = 0
  · exact ⟨_, advances_of_transform (by simp [hp]) (by simp [h]) hl hstep rfl
      (by simp [Regs.CounterOk, h, hc]) (by simp [Regs.stepsLeft, hp, h])⟩
  · exact ⟨_, advances_of_transform (by simp [hp]) (by simp [h]) hl hstep rfl
      (by simp [Regs.CounterOk, h]; omega) (by simp [Regs.stepsLeft, hp, h]; omega)⟩

theorem encRound_advances {r : Regs g} (hp : r.phase = .encRound) (hl : r.Legal) :
    ∃ q, r.Advances q := by
  have hc : 0 < r.k ∧ r.k ≤ g.r := by simpa [Regs.CounterOk, hp] using hl.1
  have hstep := (engineStep_encRound hp).trans (dif_pos hc.2)
  by_cases h : r.k = g.r
  · exact ⟨_, advances_of_transform (by simp [hp]) (by simp [h]) hl hstep rfl
      (by simp [Regs.CounterOk, h]) (by simp [Regs.stepsLeft, hp, h])⟩
  · exact ⟨_, advances_of_transform (by simp [hp]) (by simp [h]) hl hstep rfl
      (by simp [Regs.CounterOk, h]; omega) (by simp [Regs.stepsLeft, hp, h]; omega)⟩

theorem decRound_advances {r : Regs g} (hp : r.phase = .decRound) (hl : r.Legal) :
    ∃ q, r.Advances q := by
  have hc : 0 < r.k ∧ r.k ≤ g.r := by simpa [Regs.CounterOk, hp] using hl.1
  have hstep := (engineStep_decRound hp).trans (dif_pos hc)
  by_cases h : r.k = 1
  · exact ⟨_, advances_of_transform (by simp [hp]) (by simp [h]) hl hstep rfl
      (by simp [Regs.CounterOk, h]) (by simp [Regs.stepsLeft, hp, h])⟩
  · exact ⟨_, advances_of_transform (by simp [hp]) (by simp [h]) hl hstep rfl
      (by simp [Regs.CounterOk, h]; omega) (by simp [Regs.stepsLeft, hp, h]; omega)⟩

theorem decUnwhiten_advances {r : Regs g} (hp : r.phase = .decUnwhiten) (hl : r.Legal) :
    ∃ q, r.Advances q := by
  have hk : r.k = 0 := by simpa [Regs.CounterOk, hp] using hl.1
  exact ⟨_, advances_of_transform (by simp [hp]) (by simp) hl (engineStep_decUnwhiten hp) rfl hk
    (by simp [Regs.stepsLeft, hp])⟩

theorem xfFinish_advances {r : Regs g} (hp : r.phase = .xfFinish) (hl : r.Legal) :
    ∃ q, r.Advances q := by
  obtain ⟨-, hw, -⟩ := (legal_transform (by simp [hp])).mp hl
  exact ⟨_, engineStep_xfFinish hp, complete_legal ⟨hw, rfl, rfl⟩ (by decide) (absurd rfl ·),
    by simp [Regs.stepsLeft, hp], fun ht => ht.of_same_table (by simp [hp]) rfl rfl⟩

/-! ### ZEROIZE and rejected commands -/

theorem zz_advances {r : Regs g} (hp : r.phase = .zz) : ∃ q, r.Advances q := by
  refine ⟨_, engineStep_zz hp, complete_legal (eraseScratch_zero r) (by decide) (absurd rfl ·),
    by simp [Regs.stepsLeft, hp], fun _ => (tableOk_iff_settled (by simp)).mpr ?_⟩
  exact ⟨nofun, fun _ => rfl⟩

theorem err_advances {r : Regs g} (hp : r.phase = .err) (hl : r.Legal) : ∃ q, r.Advances q := by
  obtain ⟨-, hw, -, -, hc⟩ := (legal_err hp).mp hl
  exact ⟨_, engineStep_err hp, complete_legal hw hc (fun _ => rfl),
    by simp [Regs.stepsLeft, Regs.errStep, hp],
    fun ht => ht.of_same_table (by simp [hp]) rfl rfl⟩

/-- A legal busy core never stops at an engine step (rule R61): the step answers, keeps both
invariants and brings the completion nearer. -/
theorem Regs.Legal.advances {r : Regs g} (hl : r.Legal) (hi : r.phase ≠ .idle) :
    ∃ q, r.Advances q := by
  cases hp : r.phase with
  | idle => exact absurd hp hi
  | ksPack => exact ksPack_advances hp hl
  | ksInit => exact ksInit_advances hp hl
  | ksMix => exact ksMix_advances hp hl
  | ksFinish => exact ksFinish_advances hp
  | encWhiten => exact encWhiten_advances hp hl
  | encRound => exact encRound_advances hp hl
  | decRound => exact decRound_advances hp hl
  | decUnwhiten => exact decUnwhiten_advances hp hl
  | xfFinish => exact xfFinish_advances hp hl
  | zz => exact zz_advances hp
  | err => exact err_advances hp hl

end Sys2Proof.Machine
end

section
/-! What the acceptance of a header makes of the registers (rules R55 and R80). -/

namespace Sys2Proof.Machine

variable {g : Config}

/-- Everything an acceptance can do: a rejection (rule R146), or the start of one of the four
commands (rules R109, R119, R128 and R133), a transform only with a valid key (rule R140). -/
inductive Regs.Accepts (p : Payload g) (r : Regs g) : Regs g → Prop
  | rejected (st : Status) (h : st ≠ .ok) : r.Accepts p (r.clearResponse.reject st)
  | keysched :
    r.Accepts p { r.clearResponse with
      KEY := keyOf p, L := Vector.replicate _ 0, A := 0, B := 0
      si := ⟨0, g.t_pos⟩, li := ⟨0, g.c_pos⟩, keyValid := false
      phase := if 0 < g.b then .ksPack else .ksInit, k := g.b }
  | encrypt (h : r.keyValid = true) :
    r.Accepts p { r.clearResponse with
      A := (blockWords (blockOf p)).A, B := (blockWords (blockOf p)).B
      phase := .encWhiten, k := 0 }
  | decrypt (h : r.keyValid = true) :
    r.Accepts p { r.clearResponse with
      A := (blockWords (blockOf p)).A, B := (blockWords (blockOf p)).B
      phase := if 0 < g.r then .decRound else .decUnwhiten, k := g.r }
  | zeroize : r.Accepts p { r.clearResponse with phase := .zz, k := 0 }

/-- A command's acceptance is its own rule's, or a rejection. -/
theorem acceptWith_accepts {op : Byte} {len : Nat} {rule : Regs g → Regs g} (p : Payload g)
    (r : Regs g) (hok : check g op len r.keyValid = .ok → r.Accepts p (rule r.clearResponse)) :
    r.Accepts p (r.acceptWith op len rule) := by
  by_cases hc : check g op len r.keyValid = .ok
  · rw [acceptWith_of_ok hc]
    exact hok hc
  · rw [acceptWith_of_rejected hc]
    exact .rejected _ hc

theorem accept_accepts (h : BitVec 16) (p : Payload g) (r : Regs g) :
    r.Accepts p (accept h p r) := by
  unfold accept
  cases hd : decode h with
  | error e =>
    refine acceptWith_accepts p r fun hc => ?_
    rw [decode_error_check hd] at hc
    cases hc
  | ok i =>
    cases i with
    | keysched n => exact acceptWith_accepts p r fun _ => .keysched
    | encrypt n =>
      exact acceptWith_accepts p r fun hc => .encrypt (check_transform_ok (.inl rfl) hc).2
    | decrypt n =>
      exact acceptWith_accepts p r fun hc => .decrypt (check_transform_ok (.inr rfl) hc).2
    | zeroize n => exact acceptWith_accepts p r fun _ => .zeroize

/-- An acceptance leaves a busy core (rule R47), no response, and the table (rule R55). -/
theorem Regs.Accepts.busy {p : Payload g} {r q : Regs g} (h : r.Accepts p q) :
    q.phase ≠ .idle ∧ q.NoResponse ∧ q.S = r.S := by
  refine ⟨?_, ?_⟩
  · cases h with
    | keysched => dsimp only; split <;> decide
    | decrypt => dsimp only; split <;> decide
    | _ => exact nofun
  · cases h <;> exact ⟨⟨rfl, rfl, rfl⟩, rfl⟩

theorem Regs.Accepts.legal {p : Payload g} {r q : Regs g} (h : r.Accepts p q)
    (hi : r.phase = .idle) (hl : r.Legal) : q.Legal := by
  obtain ⟨hkey, hA, hB, hk, hz⟩ := hl.scratchZero hi
  have hn : r.clearResponse.NoResponse := ⟨rfl, rfl, rfl⟩
  cases h with
  | rejected st hst => exact (legal_err rfl).mpr ⟨hk, ⟨hkey, hA, hB⟩, hn, Status.code_bounds hst⟩
  | keysched =>
    by_cases hb : 0 < g.b
    · exact (legal_ksPack (if_pos hb)).mpr
        ⟨⟨hb, le_rfl⟩, ⟨rfl, rfl, rfl, rfl⟩, ⟨hn, hz⟩, rfl⟩
    · exact (legal_ksInit (if_neg hb)).mpr
        ⟨by dsimp only; have := g.t_pos; omega, ⟨rfl, rfl, rfl, rfl⟩, ⟨hn, hz⟩, rfl⟩
  | encrypt hv => exact (legal_transform rfl).mpr ⟨rfl, hkey, ⟨hn, hz⟩, hv⟩
  | decrypt hv =>
    by_cases hr : 0 < g.r
    · exact (legal_transform (by simp [hr])).mpr
        ⟨by simp [Regs.CounterOk, hr], hkey, ⟨hn, hz⟩, hv⟩
    · exact (legal_transform (by simp [hr])).mpr
        ⟨by simp [Regs.CounterOk, hr]; omega, hkey, ⟨hn, hz⟩, hv⟩
  | zeroize => exact (legal_zz rfl).mpr ⟨rfl, ⟨hkey, hA, hB⟩, hn, hz⟩

theorem Regs.Accepts.tableOk {p : Payload g} {r q : Regs g} (h : r.Accepts p q)
    (hi : r.phase = .idle) (ht : r.TableOk) : q.TableOk := by
  have hr : r.phase.inKeysched = false := by simp [hi]
  cases h with
  | rejected => exact ht.of_same_table hr rfl rfl
  | keysched =>
    by_cases hb : 0 < g.b
    · exact (tableOk_ksPack (if_pos hb)).mpr ⟨le_rfl, rfl⟩
    · have h0 : g.b = 0 := by omega
      refine (tableOk_ksInit (if_neg hb)).mpr ⟨?_, by simp [h0], r.S, ?_⟩
      · exact (packDown_of_eq_zero _ h0 _ _).symm
      · exact (initUp_of_eq_zero _ h0 _).symm
  | encrypt => exact ht.of_same_table hr rfl rfl
  | decrypt => exact ht.of_same_table hr (by dsimp only; split <;> rfl) rfl
  | zeroize => exact ht.of_same_table hr rfl rfl

end Sys2Proof.Machine
end

section
/-! Clock edges and steps from a legal core: what an edge leads to, and what holds along a run
(rules R53, R54 and R58). -/

namespace Sys2Proof.Machine

variable {g : Config}

/-! ### The clock edge under the host's own inputs -/

theorem State.edge_of_rst (s : State) (hr : s.now.rst = true) : s.edge = .next s.afterReset :=
  s.edgeWith_rst _ hr

theorem State.edge_of_accept (s : State) (hs : s.Ready) (hv : s.now.cmdValid = true) :
    s.edge = .next { s with
      regs := accept s.now.cmdHdr s.now.payload s.regs, host := s.host.tail } := by
  rw [State.edge, if_pos hv, s.edgeWith_accept _ hs]

theorem State.edge_of_quiet (s : State) (hs : s.Ready) (hv : s.now.cmdValid = false) :
    s.edge = .next { s with host := s.host.tail } := by
  obtain ⟨hseen, hi, hr⟩ := hs
  simp [State.edge, State.edgeWith, hv, hr, hseen, hi]

theorem State.edge_of_unreset (s : State) (hs : s.resetSeen = false) (hr : s.now.rst = false) :
    s.edge = .refused .beforeFirstReset := by
  simp [State.edge, State.edgeWith, hs, hr]

theorem State.edge_of_fault (s : State) {f : Fault} (hs : s.resetSeen = true)
    (hr : s.now.rst = false) (hi : s.regs.phase ≠ .idle) (he : s.regs.engineStep = .error f) :
    s.edge = .fault f := by
  simp [State.edge, State.edgeWith, hs, hr, hi, he]

/-- A busy core reads nothing of its inputs but `rst` (rules R161 and R162). -/
theorem edge_busy_congr (r : Regs g) (seen : Bool) (h h' : List (HostEdge g))
    (hi : r.phase ≠ .idle) (hr : (State.now ⟨g, r, seen, h⟩).rst = (State.now ⟨g, r, seen, h'⟩).rst)
    (ht : h.tail = h'.tail) : State.edge ⟨g, r, seen, h⟩ = State.edge ⟨g, r, seen, h'⟩ := by
  cases hr' : (State.now ⟨g, r, seen, h'⟩).rst with
  | true =>
    rw [State.edge_of_rst _ (hr.trans hr'), State.edge_of_rst _ hr']
    simp [State.afterReset, ht]
  | false =>
    cases seen with
    | false => rw [State.edge_of_unreset _ rfl (hr.trans hr'), State.edge_of_unreset _ rfl hr']
    | true =>
      cases he : r.engineStep with
      | ok q =>
        rw [State.edge_of_busy _ rfl (hr.trans hr') hi he, State.edge_of_busy _ rfl hr' hi he]
        simp [ht]
      | error f =>
        rw [State.edge_of_fault _ rfl (hr.trans hr') hi he, State.edge_of_fault _ rfl hr' hi he]

/-- What an edge makes of the registers of a legal core. -/
inductive Regs.Follows (p : Payload g) (r : Regs g) : Regs g → Prop
  | reset : r.Follows p (Regs.reset g)
  | quiet (hi : r.phase = .idle) : r.Follows p r
  | accepted {q : Regs g} (hi : r.phase = .idle) (h : r.Accepts p q) : r.Follows p q
  | engine {q : Regs g} (hi : r.phase ≠ .idle) (h : r.Advances q) : r.Follows p q

/-- A legal core never stops at a clock edge. -/
theorem State.edge_of_legal (s : State) (hs : s.resetSeen = true) (hl : s.regs.Legal) :
    ∃ r, s.regs.Follows s.now.payload r ∧
      s.edge = .next { s with regs := r, resetSeen := true, host := s.host.tail } := by
  cases hr : s.now.rst with
  | true => exact ⟨_, .reset, s.edge_of_rst hr⟩
  | false =>
    rw [← hs]
    by_cases hi : s.regs.phase = .idle
    · cases hv : s.now.cmdValid with
      | true => exact ⟨_, .accepted hi (accept_accepts _ _ _), s.edge_of_accept ⟨hs, hi, hr⟩ hv⟩
      | false => exact ⟨_, .quiet hi, s.edge_of_quiet ⟨hs, hi, hr⟩ hv⟩
    · obtain ⟨q, hq⟩ := hl.advances hi
      exact ⟨q, .engine hi hq, s.edge_of_busy hs hr hi hq.step⟩

theorem Regs.Follows.legal {p : Payload g} {r q : Regs g} (h : r.Follows p q) (hl : r.Legal) :
    q.Legal := by
  cases h with
  | reset => exact resetRegs_legal g
  | quiet => exact hl
  | accepted hi h => exact h.legal hi hl
  | engine _ h => exact h.legal

theorem resetRegs_tableOk (g : Config) : (Regs.reset g).TableOk := ⟨nofun, fun _ => rfl⟩

theorem Regs.Follows.tableOk {p : Payload g} {r q : Regs g} (h : r.Follows p q)
    (ht : r.TableOk) : q.TableOk := by
  cases h with
  | reset => exact resetRegs_tableOk g
  | quiet => exact ht
  | accepted hi h => exact h.tableOk hi ht
  | engine _ h => exact h.table ht

/-! ### The steps left to the completion (rule R166) -/

theorem stepsLeft_pos {r : Regs g} (hi : r.phase ≠ .idle) : 0 < r.stepsLeft := by
  unfold Regs.stepsLeft
  cases hp : r.phase
  case idle => exact absurd hp hi
  all_goals exact Nat.succ_pos _

theorem Regs.Legal.stepsLeft_le {r : Regs g} (hl : r.Legal) : r.stepsLeft ≤ 2304 := by
  obtain ⟨hks, hr⟩ := latency_bounds g
  obtain ⟨hc, -⟩ := hl
  unfold Regs.stepsLeft
  unfold Regs.CounterOk at hc
  cases hp : r.phase <;> simp only [hp] at hc ⊢ <;> omega

/-- An edge of a busy core brings the core nearer to being idle. -/
theorem Regs.Follows.stepsLeft_lt {p : Payload g} {r q : Regs g} (h : r.Follows p q)
    (hi : r.phase ≠ .idle) : q.stepsLeft < r.stepsLeft := by
  cases h with
  | reset => exact stepsLeft_pos hi
  | quiet hi' => exact absurd hi' hi
  | accepted hi' => exact absurd hi' hi
  | engine _ h => exact Nat.lt_of_succ_le h.nearer.le

/-! ### Runs of edges -/

theorem State.edges_succ_of_next (s : State) (n : Nat) {t : State} (h : s.edge = .next t) :
    s.edges (n + 1) = t.edges n := by
  rw [State.edges, h]

/-- The acceptance edge and the engine steps it starts. -/
theorem State.edges_of_accepted (s : State) {n : Nat} {t : Regs s.cfg} (hs : s.Ready)
    (hv : s.now.cmdValid = true) (hn : s.NoReset (n + 1))
    (h : (accept s.now.cmdHdr s.now.payload s.regs).RunsTo n t) :
    s.edges (n + 1) = .next { s with regs := t, host := s.host.drop (n + 1) } := by
  rw [s.edges_succ_of_next n (s.edge_of_accept hs hv), ← List.drop_tail]
  exact State.edges_of_runsTo
    { s with regs := accept s.now.cmdHdr s.now.payload s.regs, host := s.host.tail } hs.1
    (s.NoReset_tail hn) h

/-- The invariants hold along every run of edges from a state where they hold. -/
theorem State.edges_keep_invariants (s : State) (n : Nat) {t : State} (hs : s.resetSeen = true)
    (hl : s.regs.Legal) (ht : s.regs.TableOk) (h : s.edges n = .next t) :
    t.regs.Legal ∧ t.regs.TableOk := by
  induction n generalizing s with
  | zero => cases h; exact ⟨hl, ht⟩
  | succ n ih =>
    obtain ⟨r, hr, he⟩ := s.edge_of_legal hs hl
    rw [s.edges_succ_of_next n he] at h
    exact ih _ rfl (hr.legal hl) (hr.tableOk ht) h

/-- The invariants hold at every edge from a reset edge on, whatever the state before it. -/
theorem State.invariants_after_reset (s : State) (n : Nat) {t : State} (hr : s.now.rst = true)
    (h : s.edges (n + 1) = .next t) : t.regs.Legal ∧ t.regs.TableOk := by
  rw [s.edges_succ_of_next n (s.edge_of_rst hr)] at h
  exact s.afterReset.edges_keep_invariants n rfl (resetRegs_legal _) (resetRegs_tableOk _) h

theorem Regs.RunsTo.legal {r t : Regs g} {n : Nat} (h : r.RunsTo n t) (hl : r.Legal) :
    t.Legal := by
  induction n generalizing r with
  | zero => cases h; exact hl
  | succ n ih =>
    obtain ⟨hi, q, he, hq⟩ := h
    obtain ⟨q', hq'⟩ := hl.advances hi
    cases he.symm.trans hq'.step
    exact ih hq hq'.legal

/-! ### Steps -/

theorem step_eq_perform_accept (s : State) (hv : s.now.cmdValid = true) :
    step s = s.perform (some (accept s.now.cmdHdr)) := by
  rw [step_eq_perform, if_pos hv]

theorem step_of_edge_next {s t : State} (h : s.edge = .next t) :
    step s = t.untilIdle t.regs.stepsLeft := by
  rw [step_eq_perform, State.perform]
  rw [State.edge] at h
  rw [h]

theorem step_of_edge_refused {s : State} {q : Refusal} (h : s.edge = .refused q) :
    step s = .refused q := by
  rw [step_eq_perform, State.perform]
  rw [State.edge] at h
  rw [h]

theorem State.untilIdle_of_idle (s : State) (n : Nat) (hi : s.regs.phase = .idle) :
    s.untilIdle n = .next s := by
  cases n with
  | zero => rfl
  | succ n => rw [State.untilIdle, if_pos hi]

theorem State.untilIdle_succ_of_busy (s : State) (n : Nat) {t : State}
    (hi : s.regs.phase ≠ .idle) (h : s.edge = .next t) : s.untilIdle (n + 1) = t.untilIdle n := by
  rw [State.untilIdle, if_neg hi, h]

/-- An edge that leaves the core idle is the whole step. -/
theorem step_eq_edge_of_idle {s t : State} (h : s.edge = .next t) (hi : t.regs.phase = .idle) :
    step s = s.edge := by
  rw [step_of_edge_next h, t.untilIdle_of_idle _ hi, h]

/-- A legal core becomes idle within the steps it has left, or at a reset edge before. -/
theorem State.untilIdle_of_legal (s : State) (n : Nat) (hs : s.resetSeen = true)
    (hl : s.regs.Legal) (hn : s.regs.stepsLeft ≤ n) :
    ∃ t : State, s.untilIdle n = .next t ∧ t.cfg = s.cfg ∧ t.resetSeen = true ∧ t.regs.Legal ∧
      t.regs.phase = .idle := by
  induction n generalizing s with
  | zero =>
    have hi : s.regs.phase = .idle := by
      by_contra hi
      have := stepsLeft_pos hi
      omega
    exact ⟨s, rfl, rfl, hs, hl, hi⟩
  | succ n ih =>
    by_cases hi : s.regs.phase = .idle
    · exact ⟨s, s.untilIdle_of_idle _ hi, rfl, hs, hl, hi⟩
    · obtain ⟨r, hr, he⟩ := s.edge_of_legal hs hl
      rw [s.untilIdle_succ_of_busy n hi he]
      have hlt := hr.stepsLeft_lt hi
      exact ih _ rfl (hr.legal hl) (by dsimp only; omega)

/-- Until the core is idle a number of clock edges pass. -/
theorem State.untilIdle_eq_edges (s : State) (n : Nat) : ∃ m ≤ n, s.edges m = s.untilIdle n := by
  induction n generalizing s with
  | zero => exact ⟨0, le_rfl, rfl⟩
  | succ n ih =>
    by_cases hi : s.regs.phase = .idle
    · exact ⟨0, Nat.zero_le _, (s.untilIdle_of_idle _ hi).symm⟩
    · cases he : s.edge with
      | next t =>
        obtain ⟨m, hm, e⟩ := ih t
        exact ⟨m + 1, Nat.succ_le_succ hm, by
          rw [s.edges_succ_of_next m he, s.untilIdle_succ_of_busy n hi he, e]⟩
      | fault f => exact ⟨1, by omega, by rw [State.edges, State.untilIdle, if_neg hi, he]⟩
      | refused q => exact ⟨1, by omega, by rw [State.edges, State.untilIdle, if_neg hi, he]⟩

end Sys2Proof.Machine
end

section
/-! The output ports: the status word, the configuration word and `cmd_ready` (rules R29, R50
and R51). -/

namespace Sys2Proof.Machine

/-- The status word, bit by bit (rule R50). -/
theorem Regs.sts_getLsbD {g : Config} (r : Regs g) (i : Nat) :
    r.sts.getLsbD i =
      if i = 0 then r.busy else if i = 1 then r.keyValid else if i = 2 then r.rspValid
      else if i < 8 then false else r.rspStatus.getLsbD (i - 8) := by
  change (r.rspStatus ++ (0 : BitVec 5) ++ BitVec.ofBool r.rspValid ++ BitVec.ofBool r.keyValid
    ++ BitVec.ofBool r.busy : BitVec (8 + 5 + 1 + 1 + 1)).getLsbD i = _
  simp only [BitVec.getLsbD_append, BitVec.getLsbD_ofBool]
  grind

theorem reset_sts (g : Config) : (Regs.reset g).sts = 0 := by
  refine BitVec.eq_of_getLsbD_eq fun i _ => ?_
  simp [Regs.sts_getLsbD, Regs.busy]

theorem Config.word_fields (g : Config) : (Config.word g).extractLsb' 0 8 = BitVec.ofNat 8 g.w ∧
    (Config.word g).extractLsb' 8 8 = BitVec.ofNat 8 g.r ∧
    (Config.word g).extractLsb' 16 8 = BitVec.ofNat 8 g.b :=
  ⟨BitVec.extractLsb'_append_eq_right,
    (BitVec.extractLsb'_append_eq_of_le (by decide)).trans BitVec.extractLsb'_append_eq_right,
    (BitVec.extractLsb'_append_eq_of_le (by decide)).trans BitVec.extractLsb'_append_eq_left⟩

/-- Nothing writes the configuration (rule R7). -/
theorem State.edge_cfg {s t : State} (h : s.edge = .next t) : t.cfg = s.cfg := by
  rcases s.edgeWith_cases (if s.now.cmdValid then some (accept s.now.cmdHdr) else none) with
    ⟨-, e⟩ | ⟨-, -, e⟩ | ⟨-, -, -, ⟨-, e⟩ | ⟨_, -, e⟩⟩ | ⟨-, -, -, ⟨_, -, e⟩ | ⟨_, -, e⟩⟩
  all_goals cases e.symm.trans h <;> rfl

theorem State.cmdReady_of_rst (s : State) (hr : s.now.rst = true) : s.cmdReady = some false :=
  if_pos hr

theorem State.cmdReady_of_reset (s : State) (hr : s.now.rst = false) (hs : s.resetSeen = true) :
    s.cmdReady = some (decide (s.regs.phase = .idle)) := by
  simp [State.cmdReady, Regs.cmdReady, Regs.busy, hr, hs]

theorem State.cmdReady_of_unreset (s : State) (hr : s.now.rst = false)
    (hs : s.resetSeen = false) : s.cmdReady = none := by
  simp [State.cmdReady, hr, hs]

theorem State.cmdReady_iff_ready (s : State) : s.cmdReady = some true ↔ s.Ready := by
  cases hr : s.now.rst with
  | true => simp [s.cmdReady_of_rst hr, State.Ready, hr]
  | false =>
    cases hs : s.resetSeen with
    | true => simp [s.cmdReady_of_reset hr hs, State.Ready, hr, hs]
    | false => simp [s.cmdReady_of_unreset hr hs, State.Ready, hs]

end Sys2Proof.Machine
end

section
/-! The obligations on state, clock edges, invariants and outputs (10_state.md). -/

namespace Sys2Proof.Machine

/-! ### The invariants -/

/-- Settles O45: an edge leads to registers that follow, and those are legal. -/
theorem edgeKeepsLegal : Obligations.EdgeKeepsLegal := by
  intro s hs hl
  obtain ⟨r, hr, he⟩ := s.edge_of_legal hs hl
  exact ⟨_, he, rfl, rfl, hr.legal hl⟩

/-- Settles O46: the first edge keeps the core legal, and the edges left bring it to idle. -/
theorem stepKeepsLegal : Obligations.StepKeepsLegal := by
  intro s hs hl
  obtain ⟨r, hr, he⟩ := s.edge_of_legal hs hl
  rw [step_of_edge_next he]
  exact State.untilIdle_of_legal _ _ rfl (hr.legal hl) le_rfl

/-- Settles O47: whatever an edge makes of the registers, they hold their phase's part of the
table. -/
theorem edgeKeepsTable : Obligations.EdgeKeepsTable := by
  intro s t hs hl ht h
  obtain ⟨r, hr, he⟩ := s.edge_of_legal hs hl
  cases he.symm.trans h
  exact hr.tableOk ht

/-- Settles O44: the reset registers meet both invariants. -/
theorem resetIsLegal : Obligations.ResetIsLegal := fun g =>
  ⟨fun _ => resetRegs_legal g, fun _ => resetRegs_tableOk g, rfl, rfl, rfl⟩

/-- Settles O48: from a reset edge on the core is legal, and a legal idle core has no working
state. -/
theorem idleWorkingStateIsZero : Obligations.IdleWorkingStateIsZero := by
  intro s t n hr h hi
  obtain ⟨hl, -⟩ := s.invariants_after_reset n hr h
  obtain ⟨⟨hL, hKEY, hsi, hli⟩, hA, hB, hk, hz⟩ := hl.scratchZero hi
  exact ⟨hL, hKEY, hA, hB, hsi, hli, hk, hz⟩

/-- Settles O49: from a reset edge on both invariants hold, and `key_valid` is 0 during a key
schedule. -/
theorem validKeyMeansExpandedTable : Obligations.ValidKeyMeansExpandedTable := by
  intro s t n hr h
  obtain ⟨hl, ht⟩ := s.invariants_after_reset n hr h
  refine ⟨hl.table_of_keyValid ht, fun hi => ?_⟩
  obtain ⟨-, herased⟩ := (tableOk_iff_settled (by simp [hi])).mp ht
  exact herased

/-- Settles O50: from a reset edge on the core is legal. -/
theorem responsesAreWellFormed : Obligations.ResponsesAreWellFormed := by
  intro s t n hr h
  obtain ⟨⟨-, -, ⟨hbusy, hnone, herr, hst⟩, -, -⟩, -⟩ := s.invariants_after_reset n hr h
  exact ⟨hst, herr, hnone, fun hb => hbusy (of_decide_eq_true hb)⟩

/-! ### The clock edge and the step -/

/-- Settles O31, from what an acceptance can do. -/
theorem acceptanceClearsResponse : Obligations.AcceptanceClearsResponse := by
  intro s hs hv
  obtain ⟨hbusy, ⟨hrv, hrs, hrd⟩, hS⟩ := (accept_accepts s.now.cmdHdr s.now.payload s.regs).busy
  exact ⟨_, s.edge_of_accept hs hv, decide_eq_true hbusy, hrv, hrs, hrd, hS⟩

/-- Settles O32: the edge keeps the core idle, so it is the whole step. -/
theorem idleEdgeChangesNothing : Obligations.IdleEdgeChangesNothing := by
  intro s hs hv
  have he := s.edge_of_quiet hs hv
  obtain ⟨-, hi, -⟩ := hs
  exact ⟨he, step_eq_edge_of_idle he hi⟩

/-- Settles O33: the reset edge leaves the core idle, so it is the whole step. -/
theorem resetEdgeWins : Obligations.ResetEdgeWins := by
  intro s hr
  have he := s.edge_of_rst hr
  exact ⟨he, step_eq_edge_of_idle he rfl⟩

/-- Settles O35: two hosts that differ in the command inputs of the next edge only. -/
theorem busyEdgeIgnoresCommandInputs : Obligations.BusyEdgeIgnoresCommandInputs := by
  intro s e e' later hi hr
  exact edge_busy_congr s.regs s.resetSeen (e :: later) (e' :: later) hi hr rfl

/-- Settles O41: the first edge, and the edges until the core is idle, of which a legal core has at
most 2304. -/
theorem stepIsClockEdges : Obligations.StepIsClockEdges := by
  intro s hl
  have hnext (t : State) (he : s.edge = .next t) (hlt : t.regs.Legal) :
      ∃ n ≤ 2305, s.edges n = step s := by
    obtain ⟨m, hm, e⟩ := t.untilIdle_eq_edges t.regs.stepsLeft
    have hle := hlt.stepsLeft_le
    exact ⟨m + 1, by omega, by rw [s.edges_succ_of_next m he, step_of_edge_next he, e]⟩
  cases hs : s.resetSeen with
  | true =>
    obtain ⟨r, hr, he⟩ := s.edge_of_legal hs (hl hs)
    exact hnext _ he (hr.legal (hl hs))
  | false =>
    cases hr : s.now.rst with
    | true => exact hnext _ (s.edge_of_rst hr) (resetRegs_legal _)
    | false =>
      have he := s.edge_of_unreset hs hr
      exact ⟨1, by decide, by rw [step_of_edge_refused he, State.edges, he]⟩

/-- Settles O42: the acceptance edge starts a run of as many engine steps as the latency says, to
the result of the transaction view; each part of the run but the whole ends in a legal busy state. -/
theorem engineRefinesTransactionView : Obligations.EngineRefinesTransactionView := by
  rintro s n hs hl hv rfl hn
  have ⟨hseen, hi, _⟩ := hs
  obtain ⟨t, hrun, hti, hleft, ht⟩ := accept_runsTo s.now.cmdHdr s.payload s.regs
  obtain rfl := ht hi (hl hseen)
  have hstep := (step_eq_perform_accept s hv).trans
    (s.perform_of_runsTo (accept s.now.cmdHdr) hs hn hrun hti hleft)
  refine ⟨hstep, (s.edges_of_accepted hs hv hn hrun).trans hstep.symm, fun m hm => ?_⟩
  obtain ⟨q, hq, hrest⟩ := hrun.split hm.le
  have hqi : q.phase ≠ .idle := by
    obtain ⟨k, hk⟩ := Nat.exists_eq_succ_of_ne_zero (Nat.sub_ne_zero_of_lt hm)
    rw [hk] at hrest
    exact hrest.1
  have hlegal := hq.legal ((accept_accepts _ _ _).legal hi (hl hseen))
  obtain ⟨hsilent, -⟩ := hlegal.noResponse hqi
  exact ⟨_, s.edges_of_accepted hs hv (s.NoReset_mono hn (by omega)) hq, decide_eq_true hqi,
    hsilent⟩

/-! ### Outputs -/

/-- Settles O34: the reset edge, the values it gives, and the outputs read from them. -/
theorem resetValues : Obligations.ResetValues := by
  refine ⟨fun s hr => ⟨_, s.edge_of_rst hr⟩, fun g => ?_⟩
  have hbus : (Regs.reset g).rspBus = 0 := by
    rw [Regs.rspBus, Regs.reset_rspData, zeroBlock, Vector.toList_replicate]
    exact congrArg (BitVec.ofNat _) (leSum_zeros _)
  refine ⟨rfl, rfl, rfl, rfl, rfl, rfl, ?_, ?_, ?_, rfl, rfl, rfl, ?_, rfl, ?_, hbus, rfl⟩
  · simp
  · simp
  · simp
  · simp [zeroBlock]
  · exact reset_sts g

/-- Settles O51, bit by bit. -/
theorem statusWordFields : Obligations.StatusWordFields := by
  intro g r
  refine ⟨r.sts_getLsbD 0, r.sts_getLsbD 1, r.sts_getLsbD 2, ?_, ?_, reset_sts g⟩
  · refine BitVec.eq_of_getLsbD_eq fun i hi => ?_
    rw [BitVec.getLsbD_extractLsb', r.sts_getLsbD]
    grind
  · refine BitVec.eq_of_getLsbD_eq fun i hi => ?_
    rw [BitVec.getLsbD_extractLsb', r.sts_getLsbD]
    grind

/-- Settles O52: each field is a byte of the word, and no edge writes the configuration. -/
theorem configurationWordFields : Obligations.ConfigurationWordFields := by
  refine ⟨fun s t h => congrArg Config.word (State.edge_cfg h), fun g => ?_, by decide⟩
  obtain ⟨hw, hr, hb⟩ := Config.word_fields g
  have hw' : g.w < 256 := by rcases w_cases g with h | h | h <;> omega
  rw [hw, hr, hb]
  simp only [BitVec.toNat_ofNat]
  exact ⟨Nat.mod_eq_of_lt hw', Nat.mod_eq_of_lt g.rounds.isLt, Nat.mod_eq_of_lt g.keyBytes.isLt⟩

/-- Settles O57: with `rst = 0`, `cmd_ready = 0` means a busy core, which does not look at the
command inputs. -/
theorem commandReadyFollowsPhaseAndReset : Obligations.CommandReadyFollowsPhaseAndReset := by
  intro s
  refine ⟨s.cmdReady_of_rst, s.cmdReady_of_reset, s.cmdReady_of_unreset, s.cmdReady_iff_ready,
    fun h hv => s.edge_of_accept (s.cmdReady_iff_ready.mp h) hv, fun h hr e he => ?_⟩
  have hi : s.regs.phase ≠ .idle := by
    intro hi
    cases hs : s.resetSeen with
    | true => simp [s.cmdReady_of_reset hr hs, hi] at h
    | false => simp [s.cmdReady_of_unreset hr hs] at h
  exact edge_busy_congr s.regs s.resetSeen (e :: s.host.tail) s.host hi (he.trans hr.symm) rfl

end Sys2Proof.Machine
end

section
/-! The bytes of key words and of the data buses (rules R63 to R65): what packing leaves in a key
word at each byte, and the value of a block on `rsp_data`. -/

namespace Sys2Proof.Machine

variable {g : Config}

theorem leSum_eq_zero {d : List Byte} (h : ∀ x ∈ d, x = 0) : leSum d = 0 := by
  rw [List.eq_replicate_of_mem h, leSum_zeros]

theorem leSum_drop_lt (d : Vector Byte g.u) (k : Nat) : leSum (d.toList.drop k) < 2 ^ g.w :=
  (leSum_lt _).trans_le (Nat.pow_le_pow_right (by decide) (by simp [w_eq g]))

/-- Encoding a word keeps its value (rule R97): the sums agree bit by bit. -/
theorem leSum_leEncode (x : g.Word) : leSum (leEncode x).toList = x.toNat := by
  refine Nat.eq_of_testBit_eq fun i => ?_
  rw [leSum_testBit, BitVec.testBit_toNat]
  by_cases hi : i / 8 < g.u
  · have hlane : (leEncode x).toList.getD (i / 8) 0 = x.extractLsb' (8 * (i / 8)) 8 := by
      simp [hi, leEncode_getElem]
    rw [hlane, BitVec.getLsbD_extractLsb', Nat.div_add_mod]
    simp [Nat.mod_lt]
  · have hw := w_eq g
    rw [List.getD_eq_default _ _ (by simpa using hi), BitVec.getLsbD_of_ge x i (by omega)]
    exact BitVec.getLsbD_zero

/-! ### Key words (rules R64 and R103) -/

/-- Rotating a word left by 8 whose top byte is 0, then adding a byte, puts the byte below the
word's other bytes. -/
theorem rotl_eight_add_byte (s : Nat) (hs : 256 * s < 2 ^ g.w) (x : Byte) :
    rotl (BitVec.ofNat g.w s) 8 + wordFromByte g x = BitVec.ofNat g.w (x.toNat + 256 * s) := by
  have hw : 8 < g.w := by rcases w_cases g with h | h | h <;> omega
  have hpow : 2 ^ g.w = 2 ^ (g.w - 8) * 256 := (Nat.pow_sub_mul_pow 2 hw.le).symm
  have htop : s / 2 ^ (g.w - 8) = 0 := Nat.div_eq_of_lt (by omega)
  have hrot : (rotl (BitVec.ofNat g.w s) 8).toNat = 256 * s := by
    rw [rotl, BitVec.toNat_rotateLeft, BitVec.toNat_ofNat, Nat.mod_eq_of_lt hw,
      Nat.mod_eq_of_lt (a := s) (by omega), Nat.shiftRight_eq_div_pow, htop, Nat.or_zero,
      Nat.shiftLeft_eq, Nat.mul_comm, Nat.mod_eq_of_lt hs]
  apply BitVec.eq_of_toNat_eq
  rw [BitVec.toNat_add, hrot, wordFromByte, BitVec.toNat_setWidth, BitVec.toNat_ofNat,
    Nat.add_mod_mod, Nat.add_comm]

/-- The bytes of key word `i`, with 0 at indices `b` and above (rule R64). -/
def keyWordBytes (key : Vector Byte g.b) (i : Nat) : Vector Byte g.u :=
  Vector.ofFn fun j : Fin g.u =>
    if h : i * g.u + j.val < g.b then key[i * g.u + j.val] else 0

theorem keyWordBytes_getElem (key : Vector Byte g.b) (i j : Nat) (hj : j < g.u) :
    (keyWordBytes key i)[j] = if h : i * g.u + j < g.b then key[i * g.u + j] else 0 := by
  simp [keyWordBytes]

/-- Key word `i` when the key bytes `n` and above have been packed: those bytes of the word, the
first of them least significant. -/
def partialWord (key : Vector Byte g.b) (n i : Nat) : g.Word :=
  BitVec.ofNat g.w (leSum ((keyWordBytes key i).toList.drop (n - i * g.u)))

theorem partialWord_all (key : Vector Byte g.b) (i : Nat) :
    partialWord key 0 i = leDecode (keyWordBytes key i) := by
  rw [partialWord, Nat.zero_sub, List.drop_zero, leDecode]

/-- Before the first byte is packed every word is 0: only the padding lies above the key. -/
theorem partialWord_none (key : Vector Byte g.b) (i : Nat) : partialWord key g.b i = 0 := by
  rw [partialWord, leSum_eq_zero]
  · rfl
  · intro x hx
    obtain ⟨j, hj, rfl⟩ := List.mem_iff_getElem.mp hx
    have hju : g.b - i * g.u + j < g.u := by simp at hj; omega
    rw [List.getElem_drop, Vector.getElem_toList, keyWordBytes_getElem _ _ _ hju,
      dif_neg (by omega)]

/-- A byte of another word leaves word `i` as it is. -/
theorem partialWord_succ_of_ne (key : Vector Byte g.b) {n i : Nat} (h : n / g.u ≠ i) :
    partialWord key (n + 1) i = partialWord key n i := by
  have hi : n < i * g.u ∨ i * g.u + g.u ≤ n := by
    rw [← Nat.div_lt_iff_lt_mul g.u_pos, ← Nat.succ_mul, ← Nat.le_div_iff_mul_le g.u_pos]
    omega
  obtain hlow | hhigh := hi
  · rw [partialWord, partialWord, Nat.sub_eq_zero_of_le hlow, Nat.sub_eq_zero_of_le hlow.le]
  · rw [partialWord, partialWord, List.drop_of_length_le (by simp; omega),
      List.drop_of_length_le (by simp; omega)]

/-- A byte of word `n / u` comes in below the bytes of the word already packed. -/
theorem partialWord_of_div (key : Vector Byte g.b) {n : Nat} (hn : n < g.b) :
    rotl (partialWord key (n + 1) (n / g.u)) 8 + wordFromByte g key[n] =
      partialWord key n (n / g.u) := by
  have hbase : n / g.u * g.u + n % g.u = n := Nat.div_add_mod' n g.u
  have hoff : n % g.u < g.u := Nat.mod_lt n g.u_pos
  have hdrop : (keyWordBytes key (n / g.u)).toList.drop (n % g.u) =
      key[n] :: (keyWordBytes key (n / g.u)).toList.drop (n % g.u + 1) := by
    rw [List.drop_eq_getElem_cons (by simpa using hoff), Vector.getElem_toList,
      keyWordBytes_getElem _ _ _ hoff, dif_pos (by omega)]
    simp only [hbase]
  rw [partialWord, partialWord, show n + 1 - n / g.u * g.u = n % g.u + 1 by omega,
    show n - n / g.u * g.u = n % g.u by omega, hdrop, leSum_cons]
  refine rotl_eight_add_byte _ ?_ _
  have hlt := leSum_drop_lt (keyWordBytes key (n / g.u)) (n % g.u)
  rw [hdrop, leSum_cons] at hlt
  omega

/-- Packing byte `n` takes every word one byte on. -/
theorem packByte_partialWord (key : Vector Byte g.b) (L : Vector g.Word g.c) {n : Nat}
    (hn : n < g.b) (hL : ∀ i (hi : i < g.c), L[i] = partialWord key (n + 1) i) (i : Nat)
    (hi : i < g.c) : (packByte key L ⟨n, hn⟩)[i] = partialWord key n i := by
  rw [packByte_getElem]
  split
  · next h =>
    rw [hL, ← h]
    exact partialWord_of_div key hn
  · next h => rw [hL, partialWord_succ_of_ne key h]

/-- The packing loop turns words packed down to byte `n` into whole key words. -/
theorem packDown_partialWord (key : Vector Byte g.b) (n : Nat) (hn : n ≤ g.b)
    (L : Vector g.Word g.c) (hL : ∀ i (hi : i < g.c), L[i] = partialWord key n i) (i : Nat)
    (hi : i < g.c) : (packDown key n hn L)[i] = leDecode (keyWordBytes key i) := by
  induction n generalizing L with
  | zero => exact (hL i hi).trans (partialWord_all key i)
  | succ n ih => exact ih _ _ (packByte_partialWord key L hn hL)

theorem packKey_getElem (key : Vector Byte g.b) (i : Nat) (hi : i < g.c) :
    (packKey key)[i] = leDecode (keyWordBytes key i) :=
  packDown_partialWord key g.b le_rfl _
    (fun i _ => by rw [Vector.getElem_replicate, partialWord_none]) i hi

/-- Settles O16: the loop packs each word from its last byte to its first. -/
theorem keyPackingIsLittleEndian : Obligations.KeyPackingIsLittleEndian :=
  fun _ key i => packKey_getElem key i i.isLt

/-! ### The data buses (rule R65) -/

/-- Byte `j` of RSP_DATA stands at bits `8j+7:8j` of the bus (rules R31 and R65). -/
theorem Regs.rspBus_lane (r : Regs g) (j : Nat) (hj : j < g.blockBytes) :
    r.rspBus.extractLsb' (8 * j) 8 = r.rspData[j] := by
  have hbb : g.blockBytes = 2 * g.u := rfl
  rw [Regs.rspBus, extract_leSum _ _ _ (by omega), List.getD_eq_getElem _ _ (by simpa using hj),
    Vector.getElem_toList]

theorem Regs.rspBus_toNat (r : Regs g) : r.rspBus.toNat = leSum r.rspData.toList := by
  have hbb : 8 * g.blockBytes = 16 * g.u := by unfold Config.blockBytes; omega
  have hlt := leSum_lt r.rspData.toList
  rw [Vector.length_toList, hbb] at hlt
  rw [Regs.rspBus, BitVec.toNat_ofNat, Nat.mod_eq_of_lt hlt]

/-- The value of a block: `A` is the low word and `B` the high word (rules R14 and R63). -/
theorem leSum_wordsBlock (p : WordPair g) :
    leSum (wordsBlock p).toList = p.B.toNat * 2 ^ g.w + p.A.toNat := by
  have hlist : (wordsBlock p).toList = (leEncode p.A).toList ++ (leEncode p.B).toList := by
    rw [wordsBlock, Vector.toList_cast, Vector.toList_append]
  rw [hlist, leSum_append, leSum_leEncode, leSum_leEncode, Vector.length_toList, ← w_eq]
  ring

/-- Settles O53: the lanes of the buses, and the value of a block on `rsp_data`. -/
theorem busesCarryByteLanes : Obligations.BusesCarryByteLanes := by
  refine fun g r e p => ⟨fun j => payload_getElem e j j.isLt, fun j => r.rspBus_lane j j.isLt,
    fun h => ?_⟩
  rw [r.rspBus_toNat, h, leSum_wordsBlock]

end Sys2Proof.Machine
end

section
/-! The decoder and the encoder (30_encoding.md, rules R77 to R83). -/

namespace Sys2Proof

/-- A command has a header exactly when its LEN fits the field (rule R77). -/
theorem Instr.wellFormed_iff (i : Instr) : i.wellFormed = true ↔ i.len < 256 := by
  cases i <;> exact decide_eq_true_iff

/-- The opcodes of the commands are 1 to 4 (rule R79). -/
theorem Instr.opcode_bounds (i : Instr) : 1 ≤ i.opcode.toNat ∧ i.opcode.toNat ≤ 4 := by
  cases i <;> simp [Instr.opcode]

/-- The header of a well-formed command carries its opcode and its LEN (rule R77). -/
theorem Instr.encode_fields (i : Instr) (h : i.wellFormed = true) :
    hdrOp (encode i) = i.opcode ∧ hdrLen (encode i) = i.len := by
  rw [i.wellFormed_iff] at h
  exact ⟨hdrOp_append _ _, (hdrLen_append _ _).trans (Nat.mod_eq_of_lt h)⟩

/-- A header decodes to the one command that has its two fields (rules R77 and R79). -/
theorem decode_eq_ok_iff {h : BitVec 16} {i : Instr} :
    decode h = .ok i ↔ hdrOp h = i.opcode ∧ hdrLen h = i.len := by
  refine ⟨Machine.decode_ok_fields, fun ⟨ho, hl⟩ => ?_⟩
  unfold decode
  rw [ho, hl]
  cases i <;> rfl

theorem decode_encode {i : Instr} (h : i.wellFormed = true) : decode (encode i) = .ok i :=
  decode_eq_ok_iff.mpr (i.encode_fields h)

theorem encode_of_decode {h : BitVec 16} {i : Instr} (hd : decode h = .ok i) : encode i = h := by
  obtain ⟨ho, hl⟩ := decode_eq_ok_iff.mp hd
  rw [encode, ← ho, ← hl, hdr_split]

theorem wellFormed_of_decode {h : BitVec 16} {i : Instr} (hd : decode h = .ok i) :
    i.wellFormed = true := by
  obtain ⟨-, hl⟩ := decode_eq_ok_iff.mp hd
  rw [i.wellFormed_iff, ← hl]
  exact hdrLen_lt h

/-- Settles O8: a header is its two fields, and so is a well-formed command. -/
theorem decodeEncodeAgree : Obligations.DecodeEncodeAgree :=
  ⟨fun _ h => decode_encode h, fun _ _ hd => ⟨wellFormed_of_decode hd, encode_of_decode hd⟩⟩

/-- A header with an opcode of the table names a command (rule R79). -/
theorem exists_decode_iff (h : BitVec 16) :
    (∃ i, decode h = .ok i) ↔ 1 ≤ (hdrOp h).toNat ∧ (hdrOp h).toNat ≤ 4 := by
  constructor
  · rintro ⟨i, hd⟩
    rw [(decode_eq_ok_iff.mp hd).1]
    exact i.opcode_bounds
  · rintro ⟨hlo, hhi⟩
    obtain ho | ho | ho | ho : (hdrOp h).toNat = 1 ∨ (hdrOp h).toNat = 2 ∨ (hdrOp h).toNat = 3 ∨
        (hdrOp h).toNat = 4 := by omega
    · exact ⟨.keysched _, decode_eq_ok_iff.mpr ⟨BitVec.eq_of_toNat_eq ho, rfl⟩⟩
    · exact ⟨.encrypt _, decode_eq_ok_iff.mpr ⟨BitVec.eq_of_toNat_eq ho, rfl⟩⟩
    · exact ⟨.decrypt _, decode_eq_ok_iff.mpr ⟨BitVec.eq_of_toNat_eq ho, rfl⟩⟩
    · exact ⟨.zeroize _, decode_eq_ok_iff.mpr ⟨BitVec.eq_of_toNat_eq ho, rfl⟩⟩

/-- Any other header is refused by its opcode (rule R83). -/
theorem decode_of_reserved {h : BitVec 16} (hr : (hdrOp h).toNat = 0 ∨ 5 ≤ (hdrOp h).toNat) :
    decode h = .error (.reservedOpcode (hdrOp h)) := by
  unfold decode
  split
  case h_5 => rfl
  all_goals omega

/-- Settles O9: a header either names a command or has a reserved opcode. -/
theorem decoderRefusesExactlyReserved : Obligations.DecoderRefusesExactlyReserved := by
  refine fun h => ⟨⟨fun he => ?_, decode_of_reserved⟩, exists_decode_iff h⟩
  by_contra hr
  obtain ⟨i, hd⟩ := (exists_decode_iff h).mpr (by omega)
  cases hd.symm.trans he

/-- Settles O10: closed headers, by evaluation. -/
theorem writtenHeadersDecode : Obligations.WrittenHeadersDecode := by
  unfold Obligations.WrittenHeadersDecode
  decide

end Sys2Proof
end

section
/-! What the check and the acceptance of a command make of LEN and of the payload (rule R78). -/

namespace Sys2Proof.Machine

variable {g : Config}

/-- Only the opcodes of the table pass the check (rule R140). -/
theorem check_ok_opcode {op : Byte} {len : Nat} {kv : Bool} (h : check g op len kv = .ok) :
    op = 0x01 ∨ op = 0x02 ∨ op = 0x03 ∨ op = 0x04 := by
  by_contra hop
  rw [check, if_pos hop] at h
  cases h

/-- Settles O12: the two lengths the check lets pass, `b` and `2u`, fit the bus. -/
theorem overlongLengthsAreRejected : Obligations.OverlongLengthsAreRejected := by
  intro g op len kv hlen hop hc
  have hb := g.b_le_dmax
  have hu : 2 * g.u ≤ g.dmax := g.blockBytes_le_dmax
  rcases check_ok_opcode hc with rfl | rfl | rfl | rfl
  · have := check_keysched_ok hc
    omega
  · have := (check_transform_ok (.inl rfl) hc).1
    omega
  · have := (check_transform_ok (.inr rfl) hc).1
    omega
  · exact hop rfl

/-- Two payloads that agree on the bytes below `n`. -/
def PayloadsAgree (n : Nat) (p q : Payload g) : Prop :=
  ∀ (j : Nat) (hj : j < g.dmax), j < n → p[j] = q[j]

theorem PayloadsAgree.keyOf {p q : Payload g} (h : PayloadsAgree g.b p q) : keyOf p = keyOf q := by
  refine Vector.ext fun j hj => ?_
  simpa [Machine.keyOf] using h j (hj.trans_le g.b_le_dmax) hj

theorem PayloadsAgree.blockOf {p q : Payload g} (h : PayloadsAgree (2 * g.u) p q) :
    blockOf p = blockOf q := by
  refine Vector.ext fun j hj => ?_
  simpa [Machine.blockOf] using h j (hj.trans_le g.blockBytes_le_dmax) hj

/-- Two acceptance rules that do the same to a command that passes the check make the same
acceptance. -/
theorem acceptWith_congr {op : Byte} {len : Nat} {rule rule' : Regs g → Regs g} (r : Regs g)
    (h : check g op len r.keyValid = .ok → rule r.clearResponse = rule' r.clearResponse) :
    r.acceptWith op len rule = r.acceptWith op len rule' := by
  by_cases hc : check g op len r.keyValid = .ok
  · rw [acceptWith_of_ok hc, acceptWith_of_ok hc, h hc]
  · rw [acceptWith_of_rejected hc, acceptWith_of_rejected hc]

/-- Settles O13: a command that passes the check has the LEN of what it reads, and a rejected one
reads nothing. -/
theorem payloadBeyondLenIsIgnored : Obligations.PayloadBeyondLenIsIgnored := by
  intro g h p q r hpq
  unfold accept
  cases hd : decode h with
  | error e => rfl
  | ok i =>
    have hlen : PayloadsAgree i.len p q := (decode_ok_fields hd).2 ▸ hpq
    cases i with
    | keysched n =>
      refine acceptWith_congr r fun hc => ?_
      obtain rfl := check_keysched_ok hc
      rw [hlen.keyOf]
    | encrypt n =>
      refine acceptWith_congr r fun hc => ?_
      obtain ⟨rfl, -⟩ := check_transform_ok (.inl rfl) hc
      rw [hlen.blockOf]
    | decrypt n =>
      refine acceptWith_congr r fun hc => ?_
      obtain ⟨rfl, -⟩ := check_transform_ok (.inr rfl) hc
      rw [hlen.blockOf]
    | zeroize n => rfl

end Sys2Proof.Machine
end

section
/-! Which command a step runs (rules R54, R80 and R83). -/

namespace Sys2Proof.Machine

theorem step_of_decode_ok {s : State} {i : Instr} (hv : s.now.cmdValid = true)
    (hd : decode s.now.cmdHdr = .ok i) : step s = exec i s := by
  rw [step, if_pos hv, hd]

theorem step_of_decode_error {s : State} {e : DecodeError} (hv : s.now.cmdValid = true)
    (hd : decode s.now.cmdHdr = .error e) : step s = execReserved s.now.cmdHdr s := by
  rw [step, if_pos hv, hd]

theorem step_of_no_command {s : State} (hv : s.now.cmdValid = false) : step s = execNothing s := by
  rw [step, if_neg (by simp [hv])]

/-- Settles O37, case by case. -/
theorem stepRunsDecodedCommand : Obligations.StepRunsDecodedCommand := fun _ =>
  ⟨fun _ => step_of_decode_ok, fun _ => step_of_decode_error, step_of_no_command⟩

/-- An opcode-table word that decodes stands for a header that does. -/
theorem decode_tableHeader {nbits w : Nat} {i : Instr} (h : decodeTableWord nbits w = some i) :
    decode (tableHeader nbits w) = .ok i := by
  unfold decodeTableWord at h
  split at h
  · cases hd : decode (tableHeader nbits w) with
    | ok j => simpa [hd] using h
    | error e => simp [hd] at h
  · cases h

/-- Settles O38: the placed word is the header at the next edge, of an idle core. -/
theorem fetchedWordRunsNext : Obligations.FetchedWordRunsNext := fun _ _ _ _ h =>
  ⟨step_of_decode_ok rfl (decode_tableHeader h), rfl, rfl, rfl⟩

/-- Settles O27: the acceptance of a reserved header is a rejection, which step ERR completes. -/
theorem reservedCommandsAnswerIllegal : Obligations.ReservedCommandsAnswerIllegal := by
  intro s hs hn hv hop
  have ⟨_, hi, _⟩ := hs
  have hd := decode_of_reserved hop
  have hc := decode_error_check (g := s.cfg) hd (hdrLen s.now.cmdHdr) s.regs.keyValid
  have hacc : acceptReserved s.now.cmdHdr s.now.payload s.regs =
      s.regs.clearResponse.reject .illegalCommand := by
    rw [acceptReserved, acceptWith_of_rejected (by rw [hc]; decide), hc]
  rw [step_of_decode_error hv hd, execReserved,
    s.perform_of_runsTo _ hs hn (hacc ▸ rejected_runsTo _ _) rfl (by rw [hacc]; rfl)]
  rw [← hi]
  rfl

end Sys2Proof.Machine
end

section
/-! What each line of a program puts on the ports (30_encoding.md, rule R86). -/

namespace Sys2Proof.Machine

/-- A presented command carries its opcode, its LEN and its bytes (rules R77 and R78). -/
theorem presentCommand_encode (g : Config) {i : Instr} (hi : i.wellFormed = true)
    (bs : List Byte) :
    (presentCommand g (encode i) bs).cmdValid = true ∧
    (presentCommand g (encode i) bs).rst = false ∧
    hdrOp (presentCommand g (encode i) bs).cmdHdr = i.opcode ∧
    hdrLen (presentCommand g (encode i) bs).cmdHdr = i.len ∧
    ∀ (j : Nat) (_ : j < g.dmax) (_ : j < bs.length),
      (presentCommand g (encode i) bs).payload[j] = bs[j] := by
  obtain ⟨ho, hl⟩ := i.encode_fields hi
  refine ⟨rfl, rfl, ho, hl, fun j hj hb => ?_⟩
  rw [presentCommand_payload _ _ _ hj, List.getD_eq_getElem _ _ hb]

/-- Settles O14, line by line. -/
theorem linesAssembleToHeaderAndPayload : Obligations.LinesAssembleToHeaderAndPayload := by
  refine fun g => ⟨?_, ?_, fun op len bs hop hlen => ?_, fun r seen h => ⟨rfl, rfl⟩⟩
  · rintro l bs op hbs (⟨rfl, rfl⟩ | ⟨rfl, rfl⟩ | ⟨rfl, rfl⟩)
    · exact presentCommand_encode g (i := .keysched _) (decide_eq_true hbs) bs
    · exact presentCommand_encode g (i := .encrypt _) (decide_eq_true hbs) bs
    · exact presentCommand_encode g (i := .decrypt _) (decide_eq_true hbs) bs
  · obtain ⟨hv, hr, ho, hl, -⟩ := presentCommand_encode g (i := .zeroize 0) rfl []
    exact ⟨hv, hr, ho, hl⟩
  · refine ⟨rfl, rfl, ?_, ?_, presentCommand_payload _ bs⟩
    · rw [HostLine.assemble, presentCommand, hdrOp_append]
      exact Nat.mod_eq_of_lt hop
    · rw [HostLine.assemble, presentCommand, hdrLen_append]
      exact Nat.mod_eq_of_lt hlen

end Sys2Proof.Machine
end

section
/-! Reading the text of a line (30_encoding.md, rule R86; log entry 8). -/

namespace Sys2Proof.Machine

/-! ### The digits -/

/-- Reading a written digit gives its value, and no digit is a space. -/
theorem hexChar_reads : ∀ n < 16, hexDigit (hexChar n) = some n ∧ hexChar n ≠ ' ' := by decide

theorem decDigit_hexChar : ∀ n < 10, decDigit (hexChar n) = some n := by decide

theorem hexByte_byteText (x : Byte) :
    hexByte (hexChar (x.toNat / 16)) (hexChar (x.toNat % 16)) = some x := by
  have hx := x.isLt
  rw [hexByte, (hexChar_reads _ (by omega)).1, (hexChar_reads _ (by omega)).1]
  dsimp only
  rw [Nat.div_add_mod, BitVec.ofNat_toNat, BitVec.setWidth_eq]

theorem space_notMem_byteText (x : Byte) : ' ' ∉ byteText x := by
  have hx := x.isLt
  have h1 := (hexChar_reads (x.toNat / 16) (by omega)).2
  have h2 := (hexChar_reads (x.toNat % 16) (by omega)).2
  simp [byteText, h1.symm, h2.symm]

/-! ### The fields of a line -/

theorem hexBytes_flatMap (bs : List Byte) : hexBytes (bs.flatMap byteText) = some bs := by
  induction bs with
  | nil => rfl
  | cons x bs ih =>
    change hexBytes (hexChar _ :: hexChar _ :: bs.flatMap byteText) = _
    rw [hexBytes, hexByte_byteText, ih]

theorem readHex_hexText (bs : List Byte) : readHex (hexText bs) = some bs := by
  cases bs with
  | nil => rfl
  | cons x bs =>
    have htext : hexText (x :: bs) = (x :: bs).flatMap byteText := if_neg (List.cons_ne_nil _ _)
    rw [htext, readHex, if_neg, if_neg, hexBytes_flatMap]
    · simp [byteText]
    · simp [byteText]

theorem space_notMem_hexText (bs : List Byte) : ' ' ∉ hexText bs := by
  unfold hexText
  split
  · decide
  · rw [List.mem_flatMap]
    exact fun ⟨x, _, hx⟩ => space_notMem_byteText x hx

theorem readLen_lenText {n : Nat} (hn : n < 256) : readLen (lenText n) = some n := by
  unfold lenText
  split_ifs
  · simp [readLen, readDigits, decDigit_hexChar n ‹_›]
  · simp [readLen, readDigits, decDigit_hexChar (n / 10) (by omega),
      decDigit_hexChar (n % 10) (by omega), Nat.div_add_mod]
  · simp [readLen, readDigits, decDigit_hexChar (n / 100) (by omega),
      decDigit_hexChar (n / 10 % 10) (by omega), decDigit_hexChar (n % 10) (by omega)]
    omega

theorem space_notMem_lenText {n : Nat} (hn : n < 256) : ' ' ∉ lenText n := by
  have hdigit {m : Nat} (hm : m < 16) : ' ' ≠ hexChar m := (hexChar_reads m hm).2.symm
  unfold lenText
  split_ifs
  · simp [hdigit (m := n) (by omega)]
  · simp [hdigit (m := n / 10) (by omega), hdigit (m := n % 10) (by omega)]
  · simp [hdigit (m := n / 100) (by omega), hdigit (m := n / 10 % 10) (by omega),
      hdigit (m := n % 10) (by omega)]

theorem afterPrefix_append (p t : List Char) : afterPrefix p (p ++ t) = some t := by
  induction p with
  | nil => rfl
  | cons x p ih => rw [List.cons_append, afterPrefix, if_pos rfl, ih]

theorem readOp_opText {op : Nat} (hop : op < 256) :
    readOp (kwOp ++ byteText (BitVec.ofNat 8 op)) = some op := by
  rw [readOp, afterPrefix_append]
  change (hexByte _ _).map _ = _
  rw [hexByte_byteText]
  exact congrArg some (Nat.mod_eq_of_lt hop)

/-! ### The words of a line -/

theorem splitSpaces_of_word {w : List Char} (hw : ' ' ∉ w) : splitSpaces w = [w] := by
  induction w with
  | nil => rfl
  | cons c w ih =>
    rw [List.mem_cons, not_or] at hw
    rw [splitSpaces, if_neg (Ne.symm hw.1), ih hw.2]

theorem splitSpaces_word_append {w : List Char} (hw : ' ' ∉ w) (t : List Char) :
    splitSpaces (w ++ ' ' :: t) = w :: splitSpaces t := by
  induction w with
  | nil => rfl
  | cons c w ih =>
    rw [List.mem_cons, not_or] at hw
    rw [List.cons_append, splitSpaces, if_neg (Ne.symm hw.1), ih hw.2]

/-- The words of a line as its text gives them. -/
def HostLine.words : HostLine → List (List Char)
  | .keysched bs => [kwKeysched, hexText bs]
  | .encrypt bs => [kwEncrypt, hexText bs]
  | .decrypt bs => [kwDecrypt, hexText bs]
  | .zeroize => [kwZeroize]
  | .cmd op len bs =>
    [kwCmd, kwOp ++ byteText (BitVec.ofNat 8 op), kwLen ++ lenText len, hexText bs]
  | .reset => [kwReset]

/-- No word of a line holds a space, so splitting its text gives its words. -/
theorem splitSpaces_text {l : HostLine} (hl : l.wellFormed = true) :
    splitSpaces l.text = l.words := by
  have hhex (kw : List Char) (hkw : ' ' ∉ kw) (bs : List Byte) :
      splitSpaces (kw ++ ' ' :: hexText bs) = [kw, hexText bs] := by
    rw [splitSpaces_word_append hkw, splitSpaces_of_word (space_notMem_hexText bs)]
  cases l with
  | keysched bs => exact hhex kwKeysched (by decide) bs
  | encrypt bs => exact hhex kwEncrypt (by decide) bs
  | decrypt bs => exact hhex kwDecrypt (by decide) bs
  | zeroize => rfl
  | reset => rfl
  | cmd op len bs =>
    obtain ⟨-, hlen⟩ : op < 256 ∧ len < 256 := by simpa [HostLine.wellFormed] using hl
    have hop : ' ' ∉ kwOp ++ byteText (BitVec.ofNat 8 op) :=
      List.not_mem_append (by decide) (space_notMem_byteText _)
    have hn : ' ' ∉ kwLen ++ lenText len :=
      List.not_mem_append (by decide) (space_notMem_lenText hlen)
    rw [HostLine.text, HostLine.words, splitSpaces_word_append (by decide),
      splitSpaces_word_append hop, hhex _ hn]

theorem readWords_words {l : HostLine} (hl : l.wellFormed = true) :
    readWords l.words = some l := by
  cases l with
  | keysched bs => simp [HostLine.words, readWords, readHex_hexText]
  | encrypt bs =>
    simp [HostLine.words, readWords, readHex_hexText, show kwEncrypt ≠ kwKeysched by decide]
  | decrypt bs =>
    simp [HostLine.words, readWords, readHex_hexText, show kwDecrypt ≠ kwKeysched by decide,
      show kwDecrypt ≠ kwEncrypt by decide]
  | zeroize => rfl
  | reset => rfl
  | cmd op len bs =>
    obtain ⟨hop, hlen⟩ : op < 256 ∧ len < 256 := by simpa [HostLine.wellFormed] using hl
    simp [HostLine.words, readWords, readHex_hexText, readOp_opText hop, afterPrefix_append,
      readLen_lenText hlen]

/-- Settles O15: the text of a line splits into its words, and each field reads back. -/
theorem lineTextReadsBack : Obligations.LineTextReadsBack := by
  intro l hl
  rw [HostLine.read, splitSpaces_text hl, readWords_words hl]
  exact if_pos hl

end Sys2Proof.Machine
end

section
/-! A line held on the ports: the command in progress completes, then the line is accepted,
completes and is observed (30_encoding.md, rules R86, R162 and R170; log entries 8 and 13). -/

namespace Sys2Proof.Machine

variable {g : Config}

/-- A legal core runs to the idle phase in the steps it has left (rule R166). -/
theorem Regs.Legal.runsTo_idle {r : Regs g} (hl : r.Legal) :
    ∃ t : Regs g, r.RunsTo r.stepsLeft t ∧ t.phase = .idle ∧ t.Legal := by
  induction hn : r.stepsLeft generalizing r with
  | zero =>
    have hi : r.phase = .idle := by
      by_contra hi
      have := stepsLeft_pos hi
      omega
    exact ⟨r, rfl, hi, hl⟩
  | succ n ih =>
    have hi : r.phase ≠ .idle := fun hi => by simp [Regs.stepsLeft, hi] at hn
    obtain ⟨q, hq⟩ := hl.advances hi
    have hnearer := hq.nearer
    obtain ⟨t, hrun, ht⟩ := ih hq.legal (by omega)
    exact ⟨t, ⟨hi, q, hq.step, hrun⟩, ht⟩

/-- The engine steps of a busy core observe the command in progress with its response. -/
theorem Progress.edges_of_runsTo_left (x : Progress) {t : Regs x.state.cfg}
    (hs : x.state.resetSeen = true) (hi : x.state.regs.phase ≠ .idle)
    (hn : x.state.NoReset x.state.regs.stepsLeft)
    (h : x.state.regs.RunsTo x.state.regs.stepsLeft t) (ht : t.phase = .idle) :
    x.edges x.state.regs.stepsLeft = .next
      { state := { x.state with regs := t, host := x.state.host.drop x.state.regs.stepsLeft }
        command := none
        observed := x.observed ++ (x.command.map fun c => c.answered
          { x.state with
            regs := t, host := x.state.host.drop x.state.regs.stepsLeft }).toList } := by
  obtain ⟨n, hleft⟩ := Nat.exists_eq_add_one.mpr (stepsLeft_pos hi)
  rw [hleft] at hn h ⊢
  exact x.edges_of_runsTo_idle hs hn h ht

/-- The edges up to the idle phase observe the command in progress, if there is one. -/
theorem Progress.edges_until_idle (x : Progress) {t : Regs x.state.cfg} {q : State}
    (hs : x.state.resetSeen = true) (hn : x.state.NoReset x.state.regs.stepsLeft)
    (h : x.state.regs.RunsTo x.state.regs.stepsLeft t) (ht : t.phase = .idle)
    (hq : x.state.edges x.state.regs.stepsLeft = .next q) :
    ∃ c : Option AcceptedCommand, x.edges x.state.regs.stepsLeft = .next
      { state := q
        command := c
        observed := x.observed ++ if x.state.regs.phase = .idle then []
          else (x.command.map fun c => c.answered q).toList } := by
  cases (State.edges_of_runsTo x.state hs hn h).symm.trans hq
  by_cases hi : x.state.regs.phase = .idle
  · have hleft : x.state.regs.stepsLeft = 0 := by simp [Regs.stepsLeft, hi]
    rw [hleft] at h ⊢
    cases h
    exact ⟨x.command, by simp [hi, Progress.edges]⟩
  · exact ⟨none, by rw [if_neg hi]; exact x.edges_of_runsTo_left hs hi hn h ht⟩

theorem Progress.edges_one {x y : Progress} (h : x.edge = .next y) : x.edges 1 = .next y := by
  rw [Progress.edges, h]
  rfl

/-- A command presented to a legal ready core at the one edge its host has left is accepted and
observed with the response of the transaction rules. -/
theorem Progress.accepts_and_answers (x : Progress) {e : HostEdge x.state.cfg}
    (hs : x.state.resetSeen = true) (hi : x.state.regs.phase = .idle) (hl : x.state.regs.Legal)
    (hh : x.state.host = [e]) (hv : e.cmdValid = true) (hr : e.rst = false) :
    ∃ y z : Progress, x.edges 1 = .next y ∧ y.edges y.state.regs.stepsLeft = .next z ∧
      z.state = { x.state with
        regs := (commandResult e.cmdHdr e.payload x.state.regs.S x.state.regs.keyValid).settled
        host := [] } ∧
      z.command = none ∧
      z.observed = x.observed ++ [(acceptedCommand e.cmdHdr e.payload).answered z.state] := by
  have hnow : x.state.now = e := x.state.now_eq_of_host hh
  have hacc := x.edge_accept ⟨hs, hi, hnow ▸ hr⟩ (hnow ▸ hv)
  rw [hnow, hh] at hacc
  obtain ⟨t, hrun, hti, hleft, ht⟩ := accept_runsTo e.cmdHdr e.payload x.state.regs
  obtain rfl := ht hi hl
  rw [← hleft] at hrun
  obtain ⟨hbusy, -⟩ := (accept_accepts e.cmdHdr e.payload x.state.regs).busy
  refine ⟨_, _, Progress.edges_one hacc,
    Progress.edges_of_runsTo_left _ hs hbusy (fun _ hm => by simp at hm) hrun hti, ?_, rfl, rfl⟩
  simp

/-! ### The lines -/

/-- A command line presents a command without a reset (rule R86). -/
theorem assemble_of_ne_reset (g : Config) {l : HostLine} (hl : l ≠ .reset) :
    (l.assemble g).cmdValid = true ∧ (l.assemble g).rst = false := by
  cases l with
  | reset => exact absurd rfl hl
  | _ => exact ⟨rfl, rfl⟩

/-- A command line is held for the steps left and one edge more (rule R86). -/
theorem held_of_ne_reset {l : HostLine} (hl : l ≠ .reset) (s : State) :
    l.held s = s.regs.stepsLeft + 1 := by
  cases l with
  | reset => exact absurd rfl hl
  | _ => rfl

/-- A held command line is no reset edge for as long as one asks. -/
theorem withLine_noReset {l : HostLine} (hl : l ≠ .reset) (s : State) (n : Nat) :
    (s.withLine l).NoReset n := fun e he => by
  rw [List.eq_of_mem_replicate (List.mem_of_mem_take he)]
  exact (assemble_of_ne_reset s.cfg hl).2

/-- After the steps left a command line is held for one more edge. -/
theorem withLine_host_drop {l : HostLine} (hl : l ≠ .reset) (s : State) :
    (s.withLine l).host.drop s.regs.stepsLeft = [l.assemble s.cfg] := by
  simp [State.withLine, held_of_ne_reset hl]

/-- A line is run by the edges up to the idle phase, one edge, and the engine steps left then. -/
theorem runLine_of_edges {l : HostLine} {x y z w : Progress} (hl : l ≠ .reset)
    (hy : Progress.edges { x with state := x.state.withLine l } x.state.regs.stepsLeft = .next y)
    (hz : y.edges 1 = .next z) (hw : z.edges z.state.regs.stepsLeft = .next w) :
    runLine l x = .next w := by
  rw [runLine, held_of_ne_reset hl, Progress.edges_add _ _ 1 hy, hz]
  exact hw

/-- Settles O54: a command line in three parts, the steps left, the acceptance edge and the line's
own engine steps; a RESET line by its one edge. -/
theorem heldLineIsAcceptedAndObserved : Obligations.HeldLineIsAcceptedAndObserved := by
  refine ⟨fun x l hs hl hne => ?_, fun x => ?_⟩
  · obtain ⟨hv, hr⟩ := assemble_of_ne_reset x.state.cfg hne
    obtain ⟨t, hrun, hti, htl⟩ := hl.runsTo_idle
    have hno := withLine_noReset hne x.state x.state.regs.stepsLeft
    have hq := State.edges_of_runsTo (x.state.withLine l) hs hno hrun
    rw [withLine_host_drop hne] at hq
    obtain ⟨c, hy⟩ := Progress.edges_until_idle { x with state := x.state.withLine l } hs hno hrun
      hti hq
    obtain ⟨z, w, hz, hw, hstate, hcmd, hobs⟩ := Progress.accepts_and_answers
      ⟨{ x.state with regs := t, host := [l.assemble x.state.cfg] }, c, _⟩ hs hti htl rfl hv hr
    exact ⟨_, w, hq, rfl, hti, rfl, runLine_of_edges hne hy hz hw, hstate, hcmd, hobs⟩
  · rfl

end Sys2Proof.Machine
end

section
/-! Word arithmetic (40_word_arithmetic.md): the rotations bit by bit and by value (rules R91 to
R94), and the two round trips of the little-endian codec (rules R96 and R97). -/

namespace Sys2Proof.Machine

variable {g : Config}

/-! ### Rotations -/

/-- Rule R93: the low `lgw` bits of a word are its value modulo `w`. -/
theorem rotAmount_eq_mod (n : g.Word) : rotAmount n = n.toNat % g.w := by
  rw [rotAmount, BitVec.extractLsb'_toNat, Nat.shiftRight_zero, two_pow_lgw]

theorem rotl_mod {w : Nat} (x : BitVec w) (n : Nat) : rotl x (n % w) = rotl x n :=
  BitVec.rotateLeft_mod_eq_rotateLeft

theorem rotr_mod {w : Nat} (x : BitVec w) (n : Nat) : rotr x (n % w) = rotr x n :=
  BitVec.rotateRight_mod_eq_rotateRight

theorem rotlW_eq_rotl (x y : g.Word) : rotlW x y = rotl x y.toNat := by
  rw [rotlW, rotAmount_eq_mod, rotl_mod]

theorem rotrW_eq_rotr (x y : g.Word) : rotrW x y = rotr x y.toNat := by
  rw [rotrW, rotAmount_eq_mod, rotr_mod]

/-- The two parts of a word that a rotation moves do not overlap, so joining them adds them. -/
theorem shiftLeft_or_shiftRight_eq_add {w m x : Nat} (hm : m ≤ w) (hx : x < 2 ^ w) :
    x <<< m % 2 ^ w ||| x >>> (w - m) = x * 2 ^ m % 2 ^ w + x / 2 ^ (w - m) := by
  have hw : 2 ^ w = 2 ^ (w - m) * 2 ^ m := (Nat.pow_sub_mul_pow 2 hm).symm
  have hlow : x / 2 ^ (w - m) < 2 ^ m := Nat.div_lt_of_lt_mul (hw ▸ hx)
  have hhigh : x * 2 ^ m % 2 ^ w = 2 ^ m * (x % 2 ^ (w - m)) := by
    rw [hw, Nat.mul_mod_mul_right, Nat.mul_comm]
  rw [Nat.shiftLeft_eq, Nat.shiftRight_eq_div_pow, hhigh, Nat.two_pow_add_eq_or_of_lt hlow]

theorem rotl_toNat {w : Nat} (x : BitVec w) (n : Nat) (hw : 0 < w) :
    (rotl x n).toNat =
      if n % w = 0 then x.toNat
      else (x.toNat * 2 ^ (n % w)) % 2 ^ w + x.toNat / 2 ^ (w - n % w) := by
  rw [rotl, BitVec.toNat_rotateLeft,
    shiftLeft_or_shiftRight_eq_add (Nat.mod_lt n hw).le x.isLt]
  split
  · next h => simp [h, Nat.mod_eq_of_lt x.isLt, Nat.div_eq_of_lt x.isLt]
  · rfl

theorem rotr_toNat {w : Nat} (x : BitVec w) (n : Nat) (hw : 0 < w) :
    (rotr x n).toNat =
      if n % w = 0 then x.toNat
      else x.toNat / 2 ^ (n % w) + (x.toNat * 2 ^ (w - n % w)) % 2 ^ w := by
  have hback : w - (w - n % w) = n % w := Nat.sub_sub_self (Nat.mod_lt n hw).le
  have hadd := shiftLeft_or_shiftRight_eq_add (Nat.sub_le w (n % w)) x.isLt
  rw [hback] at hadd
  rw [rotr, BitVec.toNat_rotateRight, Nat.lor_comm, hadd, Nat.add_comm]
  split
  · next h => simp [h]
  · rfl

/-- Rule R91, bit by bit: bit `i` moves to place `(i + m) mod w`. -/
theorem rotl_getLsbD {w : Nat} (x : BitVec w) (n i : Nat) (hi : i < w) :
    (rotl x n).getLsbD ((i + n % w) % w) = x.getLsbD i := by
  have hm : n % w < w := Nat.mod_lt n (by omega)
  rw [rotl, BitVec.getLsbD_rotateLeft]
  by_cases hwrap : i + n % w < w
  · rw [Nat.mod_eq_of_lt hwrap]
    simp [hwrap]
  · have hmod : (i + n % w) % w = i + n % w - w := by
      rw [Nat.mod_eq_sub_mod (by omega), Nat.mod_eq_of_lt (by omega)]
    have hidx : w - n % w + (i + n % w - w) = i := by omega
    rw [hmod, hidx, decide_eq_true (by omega : i + n % w - w < n % w), cond_true]

/-- Rule R92, bit by bit: bit `i` comes from place `(i + m) mod w`. -/
theorem rotr_getLsbD {w : Nat} (x : BitVec w) (n i : Nat) (hi : i < w) :
    (rotr x n).getLsbD i = x.getLsbD ((i + n % w) % w) := by
  have hm : n % w < w := Nat.mod_lt n (by omega)
  rw [rotr, BitVec.getLsbD_rotateRight]
  by_cases hwrap : i + n % w < w
  · rw [Nat.mod_eq_of_lt hwrap, decide_eq_true (by omega : i < w - n % w), cond_true, Nat.add_comm]
  · have hmod : (i + n % w) % w = i - (w - n % w) := by
      rw [Nat.mod_eq_sub_mod (by omega), Nat.mod_eq_of_lt (by omega)]
      omega
    rw [hmod, decide_eq_false (by omega : ¬ i < w - n % w), cond_false, decide_eq_true hi,
      Bool.true_and]

theorem rotr_rotl {w : Nat} (x : BitVec w) (n : Nat) : rotr (rotl x n) n = x :=
  BitVec.eq_of_getLsbD_eq fun i hi => by rw [rotr_getLsbD _ n i hi, rotl_getLsbD x n i hi]

/-- Every place `j` is `(i + m) mod w` for the place `i` that `rotl` takes there. -/
theorem rotl_rotr {w : Nat} (x : BitVec w) (n : Nat) : rotl (rotr x n) n = x := by
  refine BitVec.eq_of_getLsbD_eq fun j hj => ?_
  have hm : n % w < w := Nat.mod_lt n (by omega)
  have hi : (j + (w - n % w)) % w < w := Nat.mod_lt _ (by omega)
  have hplace : ((j + (w - n % w)) % w + n % w) % w = j := by
    rw [Nat.mod_add_mod, Nat.add_assoc, Nat.sub_add_cancel hm.le, Nat.add_mod_right,
      Nat.mod_eq_of_lt hj]
  have hbit := rotl_getLsbD (rotr x n) n _ hi
  rwa [rotr_getLsbD x n _ hi, hplace] at hbit

/-- Settles O4: `2 ^ lgw = w`. -/
theorem rotationAmountIsLowBits : Obligations.RotationAmountIsLowBits := fun g n =>
  ⟨rotAmount_eq_mod n, rotAmount_eq_mod n ▸ Nat.mod_lt _ (w_pos g)⟩

/-- Settles O2: the value, the bits and the amount as a word. -/
theorem rotateLeftFollowsRule : Obligations.RotateLeftFollowsRule := fun g x n =>
  ⟨rotl_toNat x n (w_pos g), rotl_getLsbD x n, rotlW_eq_rotl x⟩

/-- Settles O3: the value, the bits and the amount as a word. -/
theorem rotateRightFollowsRule : Obligations.RotateRightFollowsRule := fun g x n =>
  ⟨rotr_toNat x n (w_pos g), rotr_getLsbD x n, rotrW_eq_rotr x⟩

/-- Settles O5: the rotations undo each other because they move each bit between the same two
places. -/
theorem wordLawsInvert : Obligations.WordLawsInvert := fun _ x y n =>
  ⟨rotr_rotl x n, rotl_rotr x n, BitVec.add_sub_cancel x y,
    by rw [BitVec.xor_assoc, BitVec.xor_self, BitVec.xor_zero], (rotl_mod x n).symm⟩

/-! ### The little-endian codec -/

/-- Rule R96: the sum taken from the first byte on is the sum of the bytes by their weights. -/
theorem leSum_ofFn {n : Nat} (f : Fin n → Byte) :
    leSum (List.ofFn f) = ∑ j : Fin n, (f j).toNat * 2 ^ (8 * j.val) := by
  induction n with
  | zero => rfl
  | succ n ih =>
    have htail : 256 * leSum (List.ofFn fun j => f j.succ) =
        ∑ j : Fin n, (f j.succ).toNat * 2 ^ (8 * j.succ.val) := by
      rw [ih, Finset.mul_sum]
      refine Finset.sum_congr rfl fun j _ => ?_
      rw [Fin.val_succ, Nat.mul_succ, Nat.pow_add]
      ring
    rw [List.ofFn_succ, leSum_cons, htail, Fin.sum_univ_succ]
    simp

theorem leDecode_toNat_eq_sum (d : Vector Byte g.u) :
    (leDecode d).toNat = ∑ j : Fin g.u, d[j].toNat * 2 ^ (8 * j.val) := by
  have hlist : d.toList = List.ofFn fun j : Fin g.u => d[j] := by
    rw [← Vector.toList_ofFn]; simp
  rw [leDecode_toNat, hlist, leSum_ofFn]

theorem leDecode_leEncode (x : g.Word) : leDecode (leEncode x) = x :=
  BitVec.eq_of_toNat_eq (by rw [leDecode_toNat, leSum_leEncode])

theorem leEncode_leDecode (d : Vector Byte g.u) : leEncode (leDecode d) = d := by
  refine Vector.ext fun j hj => ?_
  have hw := w_eq g
  rw [leEncode_getElem _ j hj, leDecode, extract_leSum _ _ _ (by omega),
    List.getD_eq_getElem _ _ (by simpa using hj), Vector.getElem_toList]

/-- Settles O6: the bytes of the sum, and both round trips lane by lane. -/
theorem wordCodecRoundTrips : Obligations.WordCodecRoundTrips := fun _ x d =>
  ⟨leDecode_toNat_eq_sum d, fun j => leEncode_getElem x j j.isLt, leDecode_leEncode x,
    leEncode_leDecode d⟩

end Sys2Proof.Machine
end

section
/-! The key schedule (41_key_schedule.md): the words of the initialized table (rule R103), the keys
that share a table (rule R105), what mixing rewrites (rule R108), and the whole command
(rule R114). -/

namespace Sys2Proof.Machine

variable {g : Config}

/-! ### One mixing iteration (rule R103, step 3) -/

theorem Mix.next_S (x : Mix g) : x.next.S = x.S.set x.si x.next.A := rfl

theorem Mix.next_L (x : Mix g) : x.next.L = x.L.set x.li x.next.B := rfl

theorem Mix.next_A (x : Mix g) : x.next.A = rotl (x.S[x.si] + x.A + x.B) 3 := rfl

theorem Mix.next_B (x : Mix g) :
    x.next.B = rotlW (x.L[x.li] + x.next.A + x.B) (x.next.A + x.B) := rfl

/-! ### Table initialization (rule R103, step 2) -/

/-- Word `i` of a table whose words below `n` are initialized: each word adds one `Q` to the word
before it. -/
theorem initUp_getElem (S : Vector g.Word g.t) (n : Nat) (h : n ≤ g.t) (i : Nat) (hi : i < n) :
    (initUp S n h)[i] = constP g + BitVec.ofNat g.w i * constQ g := by
  induction n generalizing i with
  | zero => omega
  | succ n ih =>
    unfold initUp
    rw [initWord_getElem]
    by_cases hni : n = i
    · subst hni
      cases n with
      | zero => simp
      | succ k =>
        simp only [if_true, Nat.succ_ne_zero, if_false, Nat.add_sub_cancel]
        rw [ih _ k (Nat.lt_succ_self k), BitVec.ofNat_add, BitVec.add_mul, BitVec.one_mul,
          BitVec.add_assoc]
    · rw [if_neg hni]
      exact ih _ i (by omega)

/-- Settles O17: the loop adds `Q` once for each word after word 0. -/
theorem tableInitializationIgnoresOldTable : Obligations.TableInitializationIgnoresOldTable :=
  fun g S₀ i => initUp_getElem S₀ g.t le_rfl i i.isLt

theorem initTable_getElem (i : Nat) (hi : i < g.t) :
    (initTable g)[i] = constP g + BitVec.ofNat g.w i * constQ g :=
  initUp_getElem _ g.t le_rfl i hi

/-! ### Zero keys (rule R105) -/

theorem c_eq_one (h : g.b ≤ g.u) : g.c = 1 := by
  have hu := g.u_pos
  unfold Config.c
  split
  · rfl
  · rw [Nat.div_eq_iff hu]
    omega

/-- A key of zero bytes, the empty key among them, packs to zero words. -/
theorem packKey_of_zero_bytes (key : Vector Byte g.b) (h : ∀ j (hj : j < g.b), key[j] = 0) :
    packKey key = Vector.replicate g.c 0 := by
  refine Vector.ext fun i hi => ?_
  have hbytes : keyWordBytes key i = Vector.replicate g.u 0 :=
    Vector.ext fun j hj => by simp [keyWordBytes_getElem _ _ _ hj, h]
  rw [packKey_getElem, hbytes, leDecode, Vector.toList_replicate, leSum_zeros,
    Vector.getElem_replicate]
  rfl

theorem packKey_zero_toNat (key : Vector Byte g.b) (h : ∀ j (hj : j < g.b), key[j] = 0)
    (hb : g.b ≤ g.u) : (packKey key).toList.map BitVec.toNat = [0] := by
  rw [packKey_of_zero_bytes key h, Vector.toList_replicate, c_eq_one hb]
  rfl

theorem cast_set_cast {α : Type} {m n : Nat} (h : m = n) (xs : Vector α m) (i : Fin m) (x : α) :
    (xs.cast h).set (i.cast h) x = (xs.set i x).cast h := by
  subst h; rfl

theorem cast_replicate {α : Type} {m n : Nat} (h : m = n) (x : α) :
    (Vector.replicate m x).cast h = Vector.replicate n x := by
  subst h; rfl

/-- The instance with the same `w` and `r` and keys of `k` bytes. -/
abbrev Config.withKeyBytes (g : Config) (k : Fin 256) : Config := { g with keyBytes := k }

/-- A mixing state as one of an instance with the same `w`, `r` and number of key words. -/
def Mix.withKeyBytes (m : Mix g) (k : Fin 256) (hc : g.c = (Config.withKeyBytes g k).c) :
    Mix (Config.withKeyBytes g k) :=
  { S := m.S, L := m.L.cast hc, A := m.A, B := m.B, si := m.si, li := m.li.cast hc }

/-- Mixing takes from the key length only the number of key words. -/
theorem Mix.withKeyBytes_next (m : Mix g) (k : Fin 256) (hc : g.c = (Config.withKeyBytes g k).c) :
    (m.withKeyBytes k hc).next = m.next.withKeyBytes k hc := by
  have hL : (m.withKeyBytes k hc).L[(m.withKeyBytes k hc).li] = m.L[m.li] :=
    Vector.getElem_cast (h := hc) _
  have hB : (m.withKeyBytes k hc).next.B = m.next.B := by
    rw [Mix.next_B, Mix.next_B, hL]
    rfl
  have hLs : (m.withKeyBytes k hc).next.L = m.next.L.cast hc := by
    rw [Mix.next_L, Mix.next_L, hB]
    exact cast_set_cast hc m.L m.li m.next.B
  have hli : (m.withKeyBytes k hc).next.li = m.next.li.cast hc :=
    Fin.ext (congrArg ((m.li.val + 1) % ·) hc.symm)
  exact (Mix.mk.injEq ..).mpr ⟨rfl, hLs, rfl, hB, rfl, hli⟩

theorem Mix.withKeyBytes_times (m : Mix g) (k : Fin 256) (hc : g.c = (Config.withKeyBytes g k).c)
    (n : Nat) : (m.withKeyBytes k hc).times n = (m.times n).withKeyBytes k hc := by
  induction n with
  | zero => rfl
  | succ n ih => rw [Mix.times_succ, ih, Mix.withKeyBytes_next, Mix.times_succ]

theorem initTable_withKeyBytes (k : Fin 256) : initTable (Config.withKeyBytes g k) = initTable g :=
  Vector.ext fun i hi => (initTable_getElem i hi).trans (initTable_getElem (g := g) i hi).symm

/-- Keys of two lengths with the same key words have the same table. -/
theorem expand_withKeyBytes (k : Fin 256) (hc : g.c = (Config.withKeyBytes g k).c)
    (key : Vector Byte g.b) (key' : Vector Byte (Config.withKeyBytes g k).b)
    (hL : packKey key' = (packKey key).cast hc) :
    expand key' = expand key := by
  have hstart : Mix.start key' = (Mix.start key).withKeyBytes k hc := by
    simp only [Mix.start, Mix.withKeyBytes, hL, initTable_withKeyBytes]
    rfl
  have hn : (Config.withKeyBytes g k).nMix = g.nMix := by
    rw [Config.nMix, ← hc]
    rfl
  rw [expand, hstart, hn, Mix.withKeyBytes_times]
  rfl

/-- Settles O18: both keys pack to the single word 0. -/
theorem shortZeroKeysShareOneTable : Obligations.ShortZeroKeysShareOneTable := by
  refine ⟨fun g key hb => ?_, fun g hb => ?_⟩
  · have hbu : g.b ≤ g.u := by omega
    exact ⟨c_eq_one hbu, packKey_zero_toNat key (fun j hj => by omega) hbu⟩
  · have hzero (n : Nat) : ∀ j (hj : j < n), (Vector.replicate n (0 : Byte))[j] = 0 :=
      fun j hj => Vector.getElem_replicate hj
    have hc : g.c = (Config.withKeyBytes g 0).c :=
      (c_eq_one hb).trans (c_eq_one (g := Config.withKeyBytes g 0) (Nat.zero_le _)).symm
    refine ⟨packKey_zero_toNat _ (hzero _) hb, ?_⟩
    have hL : packKey (g := Config.withKeyBytes g 0) (Vector.replicate _ 0) =
        (packKey (Vector.replicate g.b 0)).cast hc := by
      rw [packKey_of_zero_bytes _ (hzero _), packKey_of_zero_bytes _ (hzero _)]
      exact (cast_replicate hc 0).symm
    exact congrArg (fun S : Vector g.Word g.t => S.toList.map BitVec.toNat)
      (expand_withKeyBytes 0 hc _ _ hL).symm

/-! ### Mixing (rule R108) -/

/-- One iteration rewrites the word of `S` and the word of `L` under the cursors, and no other. -/
theorem Mix.next_rewrites (x : Mix g) :
    x.next.A = rotl (x.S[x.si] + x.A + x.B) 3 ∧ x.next.S[x.si] = x.next.A ∧
    (∀ i : Fin g.t, i ≠ x.si → x.next.S[i] = x.S[i]) ∧
    x.next.B = rotlW (x.L[x.li] + x.next.A + x.B) (x.next.A + x.B) ∧ x.next.L[x.li] = x.next.B ∧
    (∀ i : Fin g.c, i ≠ x.li → x.next.L[i] = x.L[i]) := by
  rw [x.next_S, x.next_L]
  exact ⟨x.next_A, Vector.getElem_set_self _,
    fun i hi => Vector.getElem_set_ne _ _ fun e => hi (Fin.ext e.symm),
    x.next_B, Vector.getElem_set_self _,
    fun i hi => Vector.getElem_set_ne _ _ fun e => hi (Fin.ext e.symm)⟩

/-- A cursor that goes round `m` places is at each of them three times in `3m` iterations: at
iterations `i`, `i + m` and `i + 2m`. -/
theorem three_le_visits {m N : Nat} (cursor : Nat → Fin m) (hcur : ∀ n, (cursor n).val = n % m)
    (hN : 3 * m ≤ N) (i : Fin m) :
    3 ≤ ((List.range N).filter fun n => decide (cursor n = i)).length := by
  have hinj : Function.Injective fun j => i.val + m * j := fun _ _ e =>
    Nat.eq_of_mul_eq_mul_left i.pos (Nat.add_left_cancel e)
  refine (List.subperm_of_subset (List.nodup_range (n := 3) |>.map hinj) fun n hn => ?_).length_le
  obtain ⟨j, hj, rfl⟩ := List.mem_map.mp hn
  have hlt : i.val + m * j < N := by
    have hi := i.isLt
    have := Nat.mul_le_mul_left m (Nat.le_of_lt_succ (List.mem_range.mp hj))
    omega
  have hat : cursor (i.val + m * j) = i :=
    Fin.ext (by rw [hcur, Nat.add_mul_mod_self_left, Nat.mod_eq_of_lt i.isLt])
  exact List.mem_filter.mpr ⟨List.mem_range.mpr hlt, decide_eq_true hat⟩

/-- Settles O19: `n_mix` is three rounds of the longer of `S` and `L`, and both cursors
start at 0. -/
theorem mixingTouchesEverySlotThrice : Obligations.MixingTouchesEverySlotThrice := by
  intro g key
  have hmix : g.nMix = 3 * max g.t g.c := rfl
  refine ⟨fun n => Mix.next_rewrites _, three_le_visits _ (fun n => ?_) (by omega),
    three_le_visits _ (fun n => ?_) (by omega)⟩
  · rw [Mix.times_si]; exact congrArg (· % g.t) (Nat.zero_add n)
  · rw [Mix.times_li]; exact congrArg (· % g.c) (Nat.zero_add n)

/-! ### The command (rules R102 and R114) -/

/-- Settles O22: the run of an accepted KEYSCHED, as edges of a ready core. -/
theorem keyschedCompletes : Obligations.KeyschedCompletes := fun s hs hn =>
  s.perform_of_runsTo (acceptKeysched s.cfg.b) hs hn (keysched_runsTo s.payload s.regs) rfl
    (keysched_stepsLeft s.payload s.regs)

end Sys2Proof.Machine
end

section
/-! Encryption (42_encrypt.md): the transforms without rounds (rules R117 and R127), the command
ENCRYPT (rules R115 and R123), and what ENCRYPT and DECRYPT leave as it was (rules R115, R118
and R124). -/

namespace Sys2Proof.Machine

variable {g : Config}

/-! ### No rounds (rules R117 and R127) -/

theorem encRounds_of_eq_zero (S : Vector g.Word g.t) (p : WordPair g) {n : Nat} (hn : n = 0)
    (h : n ≤ g.r) : encRounds S p n h = p := by
  subst hn; rfl

theorem decRounds_of_eq_zero (S : Vector g.Word g.t) (p : WordPair g) {n : Nat} (hn : n = 0)
    (h : n ≤ g.r) : decRounds S n h p = p := by
  subst hn; rfl

/-- Settles O21: without rounds only the whitening and its undoing are left. -/
theorem zeroRoundsOnlyWhiten : Obligations.ZeroRoundsOnlyWhiten := by
  intro g S X hr
  rw [encrypt, decrypt, encRounds_of_eq_zero S _ hr, decRounds_of_eq_zero S _ hr]
  exact ⟨rfl, rfl⟩

/-! ### A transform that passes the check (rules R115, R123, R124 and R131) -/

/-- A command whose acceptance starts a whole transform leaves the settled registers on a legal
core. -/
theorem State.perform_of_transformed (s : State) (acc : Payload s.cfg → Regs s.cfg → Regs s.cfg)
    {out : Vector Byte s.cfg.blockBytes} (hs : s.Ready) (hl : s.Legal)
    (hn : s.NoReset (s.cfg.r + 3))
    (hrun : (acc s.payload s.regs).RunsTo (s.cfg.r + 2) (s.regs.transformed out))
    (hleft : (acc s.payload s.regs).stepsLeft = s.cfg.r + 2) :
    s.perform (some acc) = .next
      (s.settle { S := s.regs.S, keyValid := s.regs.keyValid, status := .ok, data := out }
        (s.cfg.r + 2)) := by
  have ⟨hseen, hi, _⟩ := hs
  rw [transformed_eq_settled s.regs out hi (hl hseen)] at hrun
  exact s.perform_of_runsTo acc hs hn hrun rfl hleft

/-- Settles O23: the run of an accepted ENCRYPT, as edges of a legal ready core. -/
theorem encryptCompletes : Obligations.EncryptCompletes := by
  intro s hs hl hv hn
  rw [← hv]
  exact s.perform_of_transformed (acceptEncrypt (2 * s.cfg.u)) hs hl hn
    (encrypt_runsTo s.payload s.regs hv) (encrypt_stepsLeft s.payload s.regs hv)

/-! ### A transform of any LEN, with or without a key (rules R115, R118 and R124) -/

/-- `t` answers a transform accepted in `r`: idle with a response, and the table, the key flag, the
key words, the key buffer and the cursors as they were. -/
def Regs.AnsweredBy (r t : Regs g) : Prop :=
  t.S = r.S ∧ t.keyValid = r.keyValid ∧ t.L = r.L ∧ t.KEY = r.KEY ∧ t.si = r.si ∧ t.li = r.li ∧
    t.phase = .idle ∧ t.rspValid = true

/-- From `q`, which an acceptance edge makes of `r`, the engine steps lead to an answer within the
time of a whole transform. -/
def Regs.AnswersFrom (r q : Regs g) : Prop :=
  ∃ t, q.RunsTo q.stepsLeft t ∧ q.stepsLeft ≤ g.r + 2 ∧ r.AnsweredBy t

theorem answersFrom_of_transformed {r q : Regs g} {out : Vector Byte g.blockBytes}
    (hrun : q.RunsTo (g.r + 2) (r.transformed out)) (hleft : q.stepsLeft = g.r + 2) :
    r.AnswersFrom q :=
  ⟨r.transformed out, hleft ▸ hrun, hleft.le, rfl, rfl, rfl, rfl, rfl, rfl, rfl, rfl⟩

theorem rejected_answersFrom (r : Regs g) (st : Status) :
    r.AnswersFrom (r.clearResponse.reject st) :=
  ⟨_, rejected_runsTo r st, Nat.le_add_left 1 (g.r + 1), rfl, rfl, rfl, rfl, rfl, rfl, rfl, rfl⟩

/-- A transform that fails its check is answered as a rejection; one that passes has the block's
length and a valid key. -/
theorem transform_answersFrom {op : Byte} {len : Nat} {rule : Regs g → Regs g} {r : Regs g}
    (hop : op = 0x02 ∨ op = 0x03)
    (hok : len = 2 * g.u → r.keyValid = true → r.AnswersFrom (r.acceptWith op len rule)) :
    r.AnswersFrom (r.acceptWith op len rule) := by
  by_cases hc : check g op len r.keyValid = .ok
  · obtain ⟨hlen, hv⟩ := check_transform_ok hop hc
    exact hok hlen hv
  · rw [acceptWith_of_rejected hc]
    exact rejected_answersFrom r _

theorem acceptEncrypt_answersFrom (len : Nat) (p : Payload g) (r : Regs g) :
    r.AnswersFrom (acceptEncrypt len p r) := by
  refine transform_answersFrom (.inl rfl) ?_
  rintro rfl hv
  exact answersFrom_of_transformed (encrypt_runsTo p r hv) (encrypt_stepsLeft p r hv)

theorem acceptDecrypt_answersFrom (len : Nat) (p : Payload g) (r : Regs g) :
    r.AnswersFrom (acceptDecrypt len p r) := by
  refine transform_answersFrom (.inr rfl) ?_
  rintro rfl hv
  exact answersFrom_of_transformed (decrypt_runsTo p r hv) (decrypt_stepsLeft p r hv)

/-- An answer of the engine, as the next state of a ready core. -/
theorem State.perform_of_answersFrom (s : State) (acc : Payload s.cfg → Regs s.cfg → Regs s.cfg)
    (hs : s.Ready) (hn : s.NoReset (s.cfg.r + 3))
    (h : s.regs.AnswersFrom (acc s.payload s.regs)) :
    ∃ (t : Regs s.cfg) (host : List (HostEdge s.cfg)),
      s.perform (some acc) = .next { s with regs := t, host := host } ∧ s.regs.AnsweredBy t := by
  obtain ⟨t, hrun, hle, ht⟩ := h
  have ⟨_, _, _, _, _, _, hi, _⟩ := ht
  exact ⟨t, _, s.perform_of_runsTo acc hs (s.NoReset_mono hn (by omega)) hrun hi rfl, ht⟩

/-- Settles O28: either transform is answered from whatever registers it was accepted in. -/
theorem transformsLeaveTheRestUnchanged : Obligations.TransformsLeaveTheRestUnchanged := by
  rintro s len i (rfl | rfl) hs hn
  · exact s.perform_of_answersFrom (acceptEncrypt len) hs hn (acceptEncrypt_answersFrom len _ _)
  · exact s.perform_of_answersFrom (acceptDecrypt len) hs hn (acceptDecrypt_answersFrom len _ _)

end Sys2Proof.Machine
end

section
/-! Decryption (43_decrypt.md): the inverse law (rule R126), as laws of the words of a block, of a
round, of the rounds, and of the whitening; the command DECRYPT (rules R124 and R131); and the
inverse law at the ports. -/

namespace Sys2Proof.Machine

variable {g : Config}

/-! ### Blocks and their words (rules R63 and R97) -/

theorem wordsBlock_getElem_low (p : WordPair g) (j : Nat) (hj : j < g.u)
    (h : j < g.blockBytes) : (wordsBlock p)[j] = (leEncode p.A)[j] := by
  simp only [wordsBlock, Vector.getElem_cast, Vector.getElem_append_left hj]

theorem wordsBlock_getElem_high (p : WordPair g) (j : Nat) (hj : j < g.u)
    (h : g.u + j < g.blockBytes) : (wordsBlock p)[g.u + j] = (leEncode p.B)[j] := by
  simp [wordsBlock]

theorem leEncode_blockWords_A (d : Vector Byte g.blockBytes) (j : Nat) (hj : j < g.u)
    (h : j < g.blockBytes) : (leEncode (blockWords d).A)[j] = d[j] := by
  rw [blockWords, leEncode_leDecode, Vector.getElem_ofFn]

theorem leEncode_blockWords_B (d : Vector Byte g.blockBytes) (j : Nat) (hj : j < g.u)
    (h : g.u + j < g.blockBytes) : (leEncode (blockWords d).B)[j] = d[g.u + j] := by
  rw [blockWords, leEncode_leDecode, Vector.getElem_ofFn]

theorem blockWords_wordsBlock (p : WordPair g) : blockWords (wordsBlock p) = p := by
  simp [blockWords, wordsBlock_getElem_low, wordsBlock_getElem_high, leDecode_leEncode]

theorem wordsBlock_blockWords (d : Vector Byte g.blockBytes) : wordsBlock (blockWords d) = d := by
  refine Vector.ext fun j hj => ?_
  by_cases hlow : j < g.u
  · rw [wordsBlock_getElem_low _ j hlow, leEncode_blockWords_A]
  · have hbb : g.blockBytes = 2 * g.u := rfl
    obtain ⟨i, rfl⟩ := Nat.exists_eq_add_of_le (Nat.le_of_not_lt hlow)
    rw [wordsBlock_getElem_high _ i (by omega), leEncode_blockWords_B]

/-! ### The inverse law (rule R126) -/

theorem rotrW_rotlW (x n : g.Word) : rotrW (rotlW x n) n = x := rotr_rotl x (rotAmount n)

theorem rotlW_rotrW (x n : g.Word) : rotlW (rotrW x n) n = x := rotl_rotr x (rotAmount n)

/-- The `B` step undoes the last line of the round with the same `A`, and then the `A` step the
first with the same `B`. -/
theorem decRound_encRound (S : Vector g.Word g.t) (i : Nat) (hi : i ≤ g.r) (p : WordPair g) :
    decRound S i hi (encRound S i hi p) = p := by
  simp only [decRound, encRound, BitVec.add_sub_cancel, rotrW_rotlW, BitVec.xor_assoc,
    BitVec.xor_self, BitVec.xor_zero]

theorem encRound_decRound (S : Vector g.Word g.t) (i : Nat) (hi : i ≤ g.r) (p : WordPair g) :
    encRound S i hi (decRound S i hi p) = p := by
  simp only [decRound, encRound, BitVec.sub_add_cancel, rotlW_rotrW, BitVec.xor_assoc,
    BitVec.xor_self, BitVec.xor_zero]

/-- The rounds are undone in reverse order. -/
theorem decRounds_encRounds (S : Vector g.Word g.t) (p : WordPair g) (n : Nat) (h : n ≤ g.r) :
    decRounds S n h (encRounds S p n h) = p := by
  induction n with
  | zero => rfl
  | succ n ih => rw [encRounds, decRounds, decRound_encRound, ih]

theorem encRounds_decRounds (S : Vector g.Word g.t) (p : WordPair g) (n : Nat) (h : n ≤ g.r) :
    encRounds S (decRounds S n h p) n h = p := by
  induction n generalizing p with
  | zero => rfl
  | succ n ih => rw [encRounds, decRounds, ih, encRound_decRound]

theorem unwhiten_whiten (S : Vector g.Word g.t) (p : WordPair g) : unwhiten S (whiten S p) = p := by
  simp only [unwhiten, whiten, BitVec.add_sub_cancel]

theorem whiten_unwhiten (S : Vector g.Word g.t) (p : WordPair g) : whiten S (unwhiten S p) = p := by
  simp only [unwhiten, whiten, BitVec.sub_add_cancel]

theorem decrypt_encrypt (S : Vector g.Word g.t) (X : Vector Byte g.blockBytes) :
    decrypt (encrypt X S) S = X := by
  rw [decrypt, encrypt, blockWords_wordsBlock, decRounds_encRounds, unwhiten_whiten,
    wordsBlock_blockWords]

theorem encrypt_decrypt (S : Vector g.Word g.t) (X : Vector Byte g.blockBytes) :
    encrypt (decrypt X S) S = X := by
  rw [encrypt, decrypt, blockWords_wordsBlock, whiten_unwhiten, encRounds_decRounds,
    wordsBlock_blockWords]

/-- Settles O20: the codec, the rounds and the whitening are undone one after the other, either
way round. -/
theorem decryptInvertsEncrypt : Obligations.DecryptInvertsEncrypt := fun _ S X =>
  ⟨decrypt_encrypt S X, encrypt_decrypt S X⟩

/-! ### The command (rules R124 and R131) -/

/-- Settles O24: the run of an accepted DECRYPT, as edges of a legal ready core. -/
theorem decryptCompletes : Obligations.DecryptCompletes := by
  intro s hs hl hv hn
  rw [← hv]
  exact s.perform_of_transformed (acceptDecrypt (2 * s.cfg.u)) hs hl hn
    (decrypt_runsTo s.payload s.regs hv) (decrypt_stepsLeft s.payload s.regs hv)

/-! ### The inverse law at the ports -/

/-- A result with status OK leaves a legal core (rules R53 and R57). -/
theorem settled_legal_of_ok (x : Result g) (hx : x.status = .ok) : x.settled.Legal :=
  complete_legal (r := { Regs.reset g with S := x.S, keyValid := x.keyValid })
    ⟨⟨rfl, rfl, rfl, rfl⟩, rfl, rfl⟩ (by rw [hx]; decide)
    (fun herr => absurd (by rw [hx]; rfl) herr)

/-- The block of a command whose payload is exactly the block's bytes. -/
theorem blockOf_presentCommand (hd : BitVec 16) (d : Vector Byte g.blockBytes) :
    blockOf (presentCommand g hd d.toList).payload = d := by
  refine Vector.ext fun j hj => ?_
  rw [blockOf, Vector.getElem_ofFn, presentCommand_payload, List.getD_eq_getElem _ _ (by simpa),
    Vector.getElem_toList]

/-- A legal idle core with a valid key, given its own response as the block of a DECRYPT, answers OK
with that response decrypted. -/
theorem State.decrypt_own_response (t : State) (hd : BitVec 16) (hseen : t.resetSeen = true)
    (hi : t.regs.phase = .idle) (hl : t.regs.Legal) (hv : t.regs.keyValid = true) :
    ∃ v : State,
      exec (.decrypt (2 * t.cfg.u))
        { t with host := [presentCommand t.cfg hd t.regs.rspData.toList] } = .next v ∧
      v.regs.rspData.toList = (decrypt t.regs.rspData t.regs.S).toList ∧
      v.regs.rspStatus = 0 := by
  have hrun := decryptCompletes { t with host := [presentCommand t.cfg hd t.regs.rspData.toList] }
    ⟨hseen, hi, rfl⟩ (fun _ => hl) hv (noReset_of_line _ _ rfl rfl _)
  have hblock := blockOf_presentCommand hd t.regs.rspData
  exact ⟨_, hrun, congrArg (fun d => (decrypt d t.regs.S).toList) hblock, rfl⟩

/-- Settles O29: ENCRYPT leaves a legal idle core with the same table and a valid key, and the
inverse law says what DECRYPT of its response answers. -/
theorem encryptThenDecryptReturnsBlock : Obligations.EncryptThenDecryptReturnsBlock := by
  intro s hs hl hv hn
  have ⟨hseen, _, _⟩ := hs
  refine ⟨_, encryptCompletes s hs hl hv hn, ?_⟩
  obtain ⟨v, hrun, hdata, hst⟩ := State.decrypt_own_response
    (s.settle { S := s.regs.S, keyValid := true, status := .ok,
                data := encrypt (blockOf s.payload) s.regs.S } (s.cfg.r + 2))
    (encode (.decrypt (2 * s.cfg.u))) hseen rfl (settled_legal_of_ok _ rfl) rfl
  exact ⟨v, hrun, hdata.trans (congrArg Vector.toList (decrypt_encrypt _ _)), hst⟩

end Sys2Proof.Machine
end

section
/-! ZEROIZE (44_zeroize_and_reserved.md). -/

namespace Sys2Proof.Machine

/-- Settles O25: ZEROIZE passes the check with any LEN (rule R133), and its one engine step, as an
edge of a ready core, sets every register whatever it held (rules R132 and R134). -/
theorem zeroizeCompletes : Obligations.ZeroizeCompletes := fun s len hs hn =>
  s.perform_of_runsTo (acceptZeroize len) hs hn (zeroize_runsTo len s.payload s.regs) rfl
    (zeroize_stepsLeft len s.payload s.regs)

end Sys2Proof.Machine
end

section
/-! The first cause a command is rejected for (60_exceptions.md, rule R140), and the completion of a
rejected command (rules R139, R146 and R147). -/

namespace Sys2Proof.Machine

variable {g : Config}

/-! ### The check, opcode by opcode (rule R140) -/

/-- The opcodes as the check tells them apart: KEYSCHED, a transform, ZEROIZE, or a reserved one. -/
theorem opcode_cases (op : Byte) :
    op = 0x01 ∨ (op = 0x02 ∨ op = 0x03) ∨ op = 0x04 ∨ (op.toNat = 0 ∨ 5 ≤ op.toNat) := by
  bv_omega

theorem check_of_reserved {op : Byte} (h : op.toNat = 0 ∨ 5 ≤ op.toNat) (len : Nat) (kv : Bool) :
    check g op len kv = .illegalCommand := by
  rw [check, if_pos]
  rintro (rfl | rfl | rfl | rfl) <;> simp at h

theorem check_keysched_eq (len : Nat) (kv : Bool) :
    check g 0x01 len kv = if len = g.b then .ok else .keyLengthMismatch := by
  by_cases hl : len = g.b <;> simp [check, hl]

/-- A transform's length is checked before its key. -/
theorem check_transform_eq {op : Byte} (ho : op = 0x02 ∨ op = 0x03) (len : Nat) (kv : Bool) :
    check g op len kv =
      if len = 2 * g.u then (if kv = true then .ok else .noKey) else .blockLengthMismatch := by
  by_cases hl : len = 2 * g.u
  · rcases ho with rfl | rfl <;> cases kv <;> simp [check, hl, Config.blockBytes]
  · rcases ho with rfl | rfl <;> simp [check, hl, Config.blockBytes]

/-! ### The acceptance of any header (rules R55 and R140) -/

/-- An acceptance takes the error path exactly when its check fails, with the check's code, if its
own rule does not lead there. -/
theorem acceptWith_err_iff {op : Byte} {len : Nat} {rule : Regs g → Regs g} {r : Regs g}
    (hrule : check g op len r.keyValid = .ok → (rule r.clearResponse).phase ≠ .err) :
    ((r.acceptWith op len rule).phase = .err ↔ check g op len r.keyValid ≠ .ok) ∧
    ((r.acceptWith op len rule).phase = .err →
      (r.acceptWith op len rule).errc = (check g op len r.keyValid).code) := by
  by_cases hc : check g op len r.keyValid = .ok
  · rw [acceptWith_of_ok hc]
    exact ⟨⟨fun h => absurd h (hrule hc), fun h => absurd hc h⟩, fun h => absurd h (hrule hc)⟩
  · rw [acceptWith_of_rejected hc]
    exact ⟨⟨fun _ => hc, fun _ => rfl⟩, fun _ => rfl⟩

/-- None of the four commands' own rules leads to ERR, and a header that does not decode never
reaches a rule of its own. -/
theorem accept_err_iff (h : BitVec 16) (p : Payload g) (r : Regs g) :
    ((accept h p r).phase = .err ↔ check g (hdrOp h) (hdrLen h) r.keyValid ≠ .ok) ∧
    ((accept h p r).phase = .err →
      (accept h p r).errc = (check g (hdrOp h) (hdrLen h) r.keyValid).code) := by
  unfold accept
  cases hd : decode h with
  | error e =>
    refine acceptWith_err_iff fun hc => ?_
    cases (decode_error_check hd _ _).symm.trans hc
  | ok i =>
    obtain ⟨ho, hl⟩ := decode_ok_fields hd
    rw [ho, hl]
    cases i with
    | keysched n => exact acceptWith_err_iff fun _ => by dsimp only; split <;> decide
    | encrypt n => exact acceptWith_err_iff fun _ => nofun
    | decrypt n => exact acceptWith_err_iff fun _ => by dsimp only; split <;> decide
    | zeroize n => exact acceptWith_err_iff fun _ => nofun

/-- Settles O11: the acceptance of any header, and the check for each kind of opcode. -/
theorem checkGivesFirstCause : Obligations.CheckGivesFirstCause := by
  refine ⟨fun g h p r => accept_err_iff h p r, fun g op len kv => ?_⟩
  rcases opcode_cases op with rfl | ho | rfl | hr
  · rw [check_keysched_eq]
    by_cases hl : len = g.b <;> simp [hl]
  · have hop : op.toNat = 2 ∨ op.toNat = 3 := by rcases ho with rfl | rfl <;> decide
    rw [check_transform_eq ho]
    have hne : op.toNat ≠ 0 ∧ op.toNat ≠ 1 ∧ op.toNat ≠ 4 ∧ ¬5 ≤ op.toNat := by omega
    by_cases hl : len = 2 * g.u
    · cases kv <;> simp [hl, hop, hne]
    · simp [hl, hop, hne]
  · rw [check_zeroize]
    simp
  · rw [check_of_reserved hr]
    simp only [reduceCtorEq, false_iff, true_iff]
    omega

/-! ### The completion of a rejected command (rules R139, R146 and R147) -/

/-- Every command is performed by an acceptance that first makes its check (rules R55 and R80). -/
theorem exec_eq_perform_acceptWith (i : Instr) (s : State) :
    ∃ rule : Payload s.cfg → Regs s.cfg → Regs s.cfg,
      exec i s = s.perform (some fun p r => r.acceptWith i.opcode i.len (rule p)) := by
  cases i <;> exact ⟨_, rfl⟩

/-- From an idle core the one engine step of a rejection leaves the phase as it was, too. -/
theorem rejected_runsTo_of_idle {r : Regs g} (hi : r.phase = .idle) (st : Status) :
    (r.clearResponse.reject st).RunsTo 1
      { r with
        rspValid := true, rspStatus := st.code, rspData := zeroBlock g, errc := 0, k := 0 } := by
  have hrun := rejected_runsTo r st
  rwa [← hi] at hrun

/-- Settles O26: the acceptance rejects the command, whichever its own rule is, and the run of the
rejection is one engine step. -/
theorem rejectedCommandsChangeOnlyResponse : Obligations.RejectedCommandsChangeOnlyResponse := by
  intro s i hs hn hc
  have ⟨_, hi, _⟩ := hs
  obtain ⟨rule, hexec⟩ := exec_eq_perform_acceptWith i s
  rw [hexec]
  refine s.perform_of_runsTo _ hs hn ?_ hi ?_
  · rw [acceptWith_of_rejected hc]
    exact rejected_runsTo_of_idle hi _
  · rw [acceptWith_of_rejected hc]
    rfl

end Sys2Proof.Machine
end

section
/-! What resets, busy edges and the time before the first reset edge do to a presented command
(70_reset_and_hazards.md, rules R158, R159 and R162). -/

namespace Sys2Proof.Machine

/-! ### A busy core (rule R162) -/

/-- An edge of a busy core does not look at the presented command. -/
theorem State.edgeWith_eq_none_of_busy (s : State)
    (cmd : Option (Payload s.cfg → Regs s.cfg → Regs s.cfg)) (hi : s.regs.phase ≠ .idle) :
    s.edgeWith cmd = s.edgeWith none := by
  simp only [State.edgeWith, if_neg hi]

/-- Settles O30: the command is performed by its edge and the edges after it, and the edge does not
look at it. -/
theorem busyCoreDoesNotAccept : Obligations.BusyCoreDoesNotAccept := by
  intro s i hi
  obtain ⟨rule, hexec⟩ := exec_eq_perform_acceptWith i s
  rw [hexec, execNothing, State.perform, s.edgeWith_eq_none_of_busy _ hi, ← State.perform]

/-! ### Before the first reset edge (rules R159 and U1) -/

theorem State.edgeWith_of_unreset (s : State)
    (cmd : Option (Payload s.cfg → Regs s.cfg → Regs s.cfg)) (hs : s.resetSeen = false)
    (hr : s.now.rst = false) : s.edgeWith cmd = .refused .beforeFirstReset := by
  simp [State.edgeWith, hs, hr]

/-- Settles O36: the edge is refused whatever is presented, and with it the step and every
command. -/
theorem unresetCoreIsRefused : Obligations.UnresetCoreIsRefused := by
  intro s hs hr
  have hedge := s.edge_of_unreset hs hr
  refine ⟨hedge, step_of_edge_refused hedge, fun i => ?_, if_neg (by simp [hs]), rfl⟩
  obtain ⟨rule, hexec⟩ := exec_eq_perform_acceptWith i s
  rw [hexec, State.perform, s.edgeWith_of_unreset _ hs hr]

/-! ### A reset edge before the completion (rule R158) -/

/-- The first engine steps of a run, without a reset edge, of the edges until the core is idle. -/
theorem State.untilIdle_add_of_runsTo (s : State) {m : Nat} {q : Regs s.cfg} (n : Nat)
    (hs : s.resetSeen = true) (hn : s.NoReset m) (h : s.regs.RunsTo m q) :
    s.untilIdle (m + n) =
      State.untilIdle { s with regs := q, host := s.host.drop m } n := by
  induction m generalizing s with
  | zero => cases h; rw [Nat.zero_add]; rfl
  | succ m ih =>
    obtain ⟨hi, p, he, hrest⟩ := h
    rw [Nat.add_right_comm, s.untilIdle_succ_of_busy _ hi
      (s.edge_of_busy hs (s.NoReset_now hn) hi he), ← List.drop_tail]
    exact ih { s with regs := p, host := s.host.tail } hs (s.NoReset_tail hn) hrest

/-- A reset edge of a busy core ends the wait for the idle phase. -/
theorem State.untilIdle_of_rst (s : State) (n : Nat) (hi : s.regs.phase ≠ .idle)
    (hr : s.now.rst = true) : s.untilIdle (n + 1) = .next s.afterReset := by
  rw [s.untilIdle_succ_of_busy n hi (s.edge_of_rst hr), s.afterReset.untilIdle_of_idle n rfl]

/-- The start of a run to another state is busy, with steps left. -/
theorem Regs.RunsTo.phase_ne_idle {g : Config} {r t : Regs g} {n : Nat} (h : r.RunsTo n t)
    (hn : 0 < n) : r.phase ≠ .idle := by
  cases n with
  | zero => cases hn
  | succ n => exact h.1

/-- A reset edge before the idle phase is reached ends the wait, with every register reset. -/
theorem State.untilIdle_of_reset_after (s : State) {before later : List (HostEdge s.cfg)}
    {rstEdge : HostEdge s.cfg} {q : Regs s.cfg} (n : Nat) (hs : s.resetSeen = true)
    (hhost : s.host = before ++ rstEdge :: later) (hbefore : ∀ e ∈ before, e.rst = false)
    (hrst : rstEdge.rst = true) (h : s.regs.RunsTo before.length q) (hq : q.phase ≠ .idle) :
    s.untilIdle (before.length + (n + 1)) =
      .next { s with regs := Regs.reset s.cfg, host := later } := by
  have hno : s.NoReset before.length := by rwa [State.NoReset, hhost, List.take_left]
  have hleft : s.host.drop before.length = rstEdge :: later := by rw [hhost, List.drop_left]
  rw [s.untilIdle_add_of_runsTo (n + 1) hs hno h, hleft]
  have hend := State.untilIdle_of_rst ⟨s.cfg, q, s.resetSeen, rstEdge :: later⟩ n hq hrst
  rw [hend, State.afterReset, hs]
  rfl

/-- Settles O40: the acceptance edge starts a run of as many engine steps as the latency says, which
is still busy when the reset edge comes. -/
theorem resetAbandonsCommand : Obligations.ResetAbandonsCommand := by
  intro s e before rstEdge later hs hhost hv hbefore hrst hlen
  have ⟨hseen, _, _⟩ := hs
  have hnow := s.now_eq_of_host hhost
  have hedge := s.edge_of_accept hs (hnow ▸ hv)
  rw [hnow, hhost, List.tail_cons] at hedge
  obtain ⟨t, hrun, -, hleft, -⟩ := accept_runsTo e.cmdHdr e.payload s.regs
  obtain ⟨q, hq, hrest⟩ := hrun.split hlen.le
  obtain ⟨n, hn⟩ := Nat.exists_eq_add_of_lt hlen
  rw [step_of_edge_next hedge, hleft, hn]
  exact State.untilIdle_of_reset_after _ n hseen rfl hbefore hrst hq
    (hrest.phase_ne_idle (Nat.sub_pos_of_lt hlen))

end Sys2Proof.Machine
end

section
/-! The latency of a command (70_reset_and_hazards.md, rules R166 and R167), and what the status
word depends on (rule R167). -/

namespace Sys2Proof.Machine

variable {g : Config}

/-! ### The latency of each command (rule R166) -/

theorem latency_keysched (kv : Bool) : latency g 0x01 g.b kv = g.b + g.t + g.nMix + 1 := by
  rw [latency, if_neg (not_not.mpr (check_keysched kv)), if_pos rfl]

theorem latency_transform {op : Byte} (ho : op = 0x02 ∨ op = 0x03) {len : Nat} {kv : Bool}
    (hc : check g op len kv = .ok) : latency g op len kv = g.r + 2 := by
  rw [latency, if_neg (not_not.mpr hc), if_neg (by rcases ho with rfl | rfl <;> decide), if_pos ho]

theorem latency_zeroize (len : Nat) (kv : Bool) : latency g 0x04 len kv = 1 := by
  rw [latency, if_neg (not_not.mpr (check_zeroize len kv))]
  rfl

/-- A rejected command takes one engine step, and each of the four others its own number. -/
theorem latency_range (g : Config) (op : Byte) (len : Nat) (kv : Bool) :
    1 ≤ latency g op len kv ∧ latency g op len kv ≤ 2304 := by
  obtain ⟨hks, hr⟩ := latency_bounds g
  by_cases hc : check g op len kv = .ok
  · rcases check_ok_opcode hc with rfl | rfl | rfl | rfl
    · obtain rfl := check_keysched_ok hc
      rw [latency_keysched]
      omega
    · rw [latency_transform (.inl rfl) hc]
      omega
    · rw [latency_transform (.inr rfl) hc]
      omega
    · rw [latency_zeroize]
      omega
  · rw [latency_of_rejected hc]
    omega

/-- A run to the idle phase starts busy exactly if it has a step to make. -/
theorem Regs.RunsTo.busy_eq {r t : Regs g} {n : Nat} (h : r.RunsTo n t) (ht : t.phase = .idle) :
    r.busy = decide (0 < n) := by
  refine decide_eq_decide.mpr ⟨fun hi => ?_, h.phase_ne_idle⟩
  by_contra hn
  obtain rfl : n = 0 := by omega
  cases h
  exact hi ht

/-- Settles O39: the latencies one by one; and the acceptance edge starts a run to the idle phase of
as many steps, of which the edges after it make `m`. -/
theorem latencyIsExact : Obligations.LatencyIsExact := by
  refine ⟨fun g kv => ⟨fun _ _ => latency_of_rejected, fun len => latency_zeroize len kv,
    latency_keysched kv, latency_transform (.inl rfl) check_encrypt,
    latency_transform (.inr rfl) check_decrypt, fun op len => latency_range g op len kv,
    (latency_keysched kv).trans (by decide)⟩, fun s m hs hv hn hm => ?_⟩
  obtain ⟨t, hrun, ht, -, -⟩ := accept_runsTo s.now.cmdHdr s.now.payload s.regs
  obtain ⟨q, hq, hrest⟩ := hrun.split hm
  exact ⟨_, s.edges_of_accepted hs hv hn hq, (hrest.busy_eq ht).trans (by simp)⟩

/-! ### Registers that differ in the data only (rule R167) -/

/-- The registers of `r`, with the data of `d`: everything the sequencer and the status word are not
made of. -/
def Regs.withData (r d : Regs g) : Regs g :=
  { r with
    si := d.si, li := d.li, A := d.A, B := d.B, S := d.S, L := d.L, KEY := d.KEY
    rspData := d.rspData }

theorem eq_withData {r q : Regs g} (h : r.control = q.control) : q = r.withData q := by
  cases r
  cases q
  simp only [Regs.control, Prod.mk.injEq] at h
  obtain ⟨rfl, rfl, rfl, rfl, rfl, rfl⟩ := h
  rfl

/-- An engine step with a guard makes the same of the control part if it does where the guard
holds. -/
theorem map_control_guarded {c : Prop} [Decidable c] {q q' : c → Regs g} {f : Fault}
    (h : ∀ hc, (q hc).control = (q' hc).control) :
    (if hc : c then Except.ok (q hc) else .error f).map Regs.control =
      (if hc : c then Except.ok (q' hc) else .error f).map Regs.control := by
  by_cases hc : c
  · rw [dif_pos hc, dif_pos hc]
    exact congrArg Except.ok (h hc)
  · rw [dif_neg hc, dif_neg hc]

/-- An engine step makes the same of the control part, and stops at the same counters, whatever the
data. -/
theorem engineStep_withData (r d : Regs g) :
    (r.withData d).engineStep.map Regs.control = r.engineStep.map Regs.control := by
  have hphase : (r.withData d).phase = r.phase := rfl
  unfold Regs.engineStep
  rw [hphase]
  cases r.phase with
  | ksPack => exact map_control_guarded fun _ => rfl
  | ksInit => exact map_control_guarded fun _ => rfl
  | encRound => exact map_control_guarded fun _ => rfl
  | decRound => exact map_control_guarded fun _ => rfl
  | _ => rfl

/-- An acceptance makes the same of the control part if its own rule does. -/
theorem acceptWith_withData {op : Byte} {len : Nat} {rule rule' : Regs g → Regs g} (r d : Regs g)
    (h : (rule (r.withData d).clearResponse).control = (rule' r.clearResponse).control) :
    ((r.withData d).acceptWith op len rule).control = (r.acceptWith op len rule').control := by
  by_cases hc : check g op len r.keyValid = .ok
  · rw [acceptWith_of_ok hc, acceptWith_of_ok (r := r.withData d) hc, h]
  · rw [acceptWith_of_rejected hc, acceptWith_of_rejected (r := r.withData d) hc]
    rfl

/-- An acceptance makes the same of the control part, whatever the payload and the data. -/
theorem accept_withData (h : BitVec 16) (p p' : Payload g) (r d : Regs g) :
    (accept h p (r.withData d)).control = (accept h p' r).control := by
  unfold accept
  cases decode h with
  | error e => exact acceptWith_withData r d rfl
  | ok i => cases i <;> exact acceptWith_withData r d rfl

theorem sts_withData (r d : Regs g) : (r.withData d).sts = r.sts := rfl

/-! ### States that differ in the data only (rule R167) -/

/-- Two states of one configuration that agree on the sequencer and on what the host presents, but for
payloads. -/
inductive State.SameControl : State → State → Prop
  | mk {g : Config} {r q : Regs g} (seen : Bool) {h h' : List (HostEdge g)}
    (hr : r.control = q.control) (hh : h.map HostEdge.control = h'.map HostEdge.control) :
    SameControl ⟨g, r, seen, h⟩ ⟨g, q, seen, h'⟩

/-- Two outcomes with states that differ in the data only, or with the same stop. -/
inductive OutcomesAgree :
    Host.Outcome State Fault Refusal → Host.Outcome State Fault Refusal → Prop
  | next {s t : State} (h : s.SameControl t) : OutcomesAgree (.next s) (.next t)
  | fault (f : Fault) : OutcomesAgree (.fault f) (.fault f)
  | refused (q : Refusal) : OutcomesAgree (.refused q) (.refused q)

/-- Hosts that present the same command inputs do so at the next edge. -/
theorem now_control_of_host {r q : Regs g} {seen : Bool} {h h' : List (HostEdge g)}
    (hh : h.map HostEdge.control = h'.map HostEdge.control) :
    (State.now ⟨g, r, seen, h⟩).control = (State.now ⟨g, q, seen, h'⟩).control := by
  cases h with
  | nil =>
    cases h' with
    | nil => rfl
    | cons => cases hh
  | cons =>
    cases h' with
    | nil => cases hh
    | cons => exact (List.cons.inj hh).1

/-- An edge of busy cores that differ in the data only keeps it so, or stops both alike. -/
theorem edge_agrees_of_busy {r d : Regs g} {h h' : List (HostEdge g)} (hi : r.phase ≠ .idle)
    (hrst : (State.now ⟨g, r, true, h⟩).rst = false)
    (hrst' : (State.now ⟨g, r.withData d, true, h'⟩).rst = false)
    (htail : h.tail.map HostEdge.control = h'.tail.map HostEdge.control) :
    OutcomesAgree (State.edge ⟨g, r, true, h⟩) (State.edge ⟨g, r.withData d, true, h'⟩) := by
  have hcontrol := engineStep_withData r d
  cases he : r.engineStep with
  | ok x =>
    cases he' : (r.withData d).engineStep with
    | ok y =>
      rw [he, he'] at hcontrol
      rw [State.edge_of_busy _ rfl hrst hi he, State.edge_of_busy _ rfl hrst' hi he']
      exact .next (.mk true (Except.ok.inj hcontrol).symm htail)
    | error f => rw [he, he'] at hcontrol; cases hcontrol
  | error f =>
    cases he' : (r.withData d).engineStep with
    | ok y => rw [he, he'] at hcontrol; cases hcontrol
    | error f' =>
      rw [he, he'] at hcontrol
      cases hcontrol
      rw [State.edge_of_fault _ rfl hrst hi he, State.edge_of_fault _ rfl hrst' hi he']
      exact .fault f

/-- An edge keeps the agreement. -/
theorem edge_agrees {s t : State} (hst : s.SameControl t) : OutcomesAgree s.edge t.edge := by
  obtain @⟨g, r, q, seen, h, h', hr, hh⟩ := hst
  have hnow := now_control_of_host (r := r) (q := q) (seen := seen) hh
  have htail : h.tail.map HostEdge.control = h'.tail.map HostEdge.control := by
    rw [List.map_tail, List.map_tail, hh]
  simp only [HostEdge.control, Prod.mk.injEq] at hnow
  obtain ⟨hrst, hv, hhdr⟩ := hnow
  rw [eq_withData hr] at hrst hv hhdr ⊢
  cases hrst' : (State.now ⟨g, r, seen, h⟩).rst with
  | true =>
    rw [State.edge_of_rst _ hrst', State.edge_of_rst _ (hrst.symm.trans hrst')]
    exact .next (.mk true rfl htail)
  | false =>
    have hrst'' := hrst.symm.trans hrst'
    cases seen with
    | false =>
      rw [State.edge_of_unreset _ rfl hrst', State.edge_of_unreset _ rfl hrst'']
      exact .refused _
    | true =>
      by_cases hi : r.phase = .idle
      · cases hv' : (State.now ⟨g, r, true, h⟩).cmdValid with
        | true =>
          rw [State.edge_of_accept _ ⟨rfl, hi, hrst'⟩ hv',
            State.edge_of_accept _ ⟨rfl, hi, hrst''⟩ (hv.symm.trans hv')]
          exact .next (.mk true (hhdr ▸ (accept_withData _ _ _ _ _).symm) htail)
        | false =>
          rw [State.edge_of_quiet _ ⟨rfl, hi, hrst'⟩ hv',
            State.edge_of_quiet _ ⟨rfl, hi, hrst''⟩ (hv.symm.trans hv')]
          exact .next (.mk true rfl htail)
      · exact edge_agrees_of_busy hi hrst' hrst'' htail

theorem edges_agree {s t : State} (n : Nat) (hst : s.SameControl t) :
    OutcomesAgree (s.edges n) (t.edges n) := by
  induction n generalizing s t with
  | zero => exact .next hst
  | succ n ih =>
    have hedge := edge_agrees hst
    rw [State.edges, State.edges]
    generalize s.edge = o, t.edge = o' at hedge ⊢
    cases hedge with
    | next h => exact ih h
    | fault f => exact .fault f
    | refused q => exact .refused q

theorem OutcomesAgree.stsOf_eq {o o' : Host.Outcome State Fault Refusal}
    (h : OutcomesAgree o o') : stsOf o = stsOf o' := by
  cases h with
  | next hst =>
    obtain ⟨seen, hr, -⟩ := hst
    rw [eq_withData hr]
    rfl
  | fault f => rfl
  | refused q => rfl

/-- Settles O43: the latency is a function of the opcode and the check's result; and agreement on
the sequencer goes on from edge to edge. -/
theorem statusIndependentOfData : Obligations.StatusIndependentOfData := by
  refine ⟨fun g op len len' kv kv' hc => by rw [latency, latency, hc], ?_⟩
  intro g r₁ r₂ seen h₁ h₂ n hr hh
  exact (edges_agree n (.mk seen hr hh)).stsOf_eq

end Sys2Proof.Machine
end

section
/-! What a run observes (70_reset_and_hazards.md, rules R158, R161 and R170; log entry 13). -/

namespace Sys2Proof.Machine

/-! ### One command of a run (rules R158 and R170) -/

theorem Progress.edges_succ {x y : Progress} (n : Nat) (h : x.edge = .next y) :
    x.edges (n + 1) = y.edges n := by
  rw [Progress.edges, h]

/-- A run after the acceptance edge of the presented command (rules R55 and R170). -/
def Progress.accepted (x : Progress) : Progress :=
  { state := { x.state with
      regs := accept x.state.now.cmdHdr x.state.payload x.state.regs
      host := x.state.host.tail }
    command := some (acceptedCommand x.state.now.cmdHdr x.state.payload)
    observed := x.observed }

/-- The acceptance edge and engine steps that do not complete the command leave it in progress. -/
theorem Progress.edges_of_accepted_busy (x : Progress) {m : Nat} {q : Regs x.state.cfg}
    (hs : x.state.Ready) (hv : x.state.now.cmdValid = true) (hn : x.state.NoReset (m + 1))
    (h : x.accepted.state.regs.RunsTo m q) (hq : q.phase ≠ .idle) :
    x.edges (m + 1) = .next { x.accepted with
      state := { x.state with regs := q, host := x.state.host.drop (m + 1) } } := by
  have ⟨hseen, _, _⟩ := hs
  rw [Progress.edges_succ m (x.edge_accept hs hv)]
  simp only [← List.drop_tail (i := m)]
  exact x.accepted.edges_of_runsTo_busy hseen (x.state.NoReset_tail hn) h hq

/-- The acceptance edge and the engine steps to the completion edge observe the command. -/
theorem Progress.edges_of_accepted_idle (x : Progress) {n : Nat} {t : Regs x.state.cfg}
    (hs : x.state.Ready) (hv : x.state.now.cmdValid = true) (hn : x.state.NoReset (n + 1))
    (h : x.accepted.state.regs.RunsTo n t) (h0 : 0 < n) (ht : t.phase = .idle) :
    x.edges (n + 1) = .next
      { state := { x.state with regs := t, host := x.state.host.drop (n + 1) }
        command := none
        observed := x.observed ++ [(acceptedCommand x.state.now.cmdHdr x.state.payload).answered
          { x.state with regs := t, host := x.state.host.drop (n + 1) }] } := by
  have ⟨hseen, _, _⟩ := hs
  obtain ⟨k, rfl⟩ := Nat.exists_eq_add_one.mpr h0
  rw [Progress.edges_succ _ (x.edge_accept hs hv)]
  simp only [← List.drop_tail (i := k + 1)]
  exact x.accepted.edges_of_runsTo_idle hseen (x.state.NoReset_tail hn) h ht

/-- A reset edge abandons what is in progress and observes nothing. -/
theorem Progress.edge_of_rst (x : Progress) (hr : x.state.now.rst = true) :
    x.edge = .next
      { state := x.state.afterReset, command := none, observed := x.observed } := by
  rw [x.edge_of_next (x.state.edge_of_rst hr), x.after_reset _ hr]

/-- Settles O55: the acceptance edge starts a run of as many engine steps as the latency says, each
part of which leaves the command in progress, for a reset edge to abandon, and the whole of which
observes it. -/
theorem runObservesEachCompletion : Obligations.RunObservesEachCompletion := by
  rintro x n hs hl hv rfl
  have ⟨hseen, hi, _⟩ := hs
  obtain ⟨t, hrun, hti, -, ht⟩ := accept_runsTo x.state.now.cmdHdr x.state.payload x.state.regs
  obtain rfl := ht hi (hl hseen)
  refine ⟨fun m hm hn => ?_, fun hn =>
    ⟨_, rfl, x.edges_of_accepted_idle hs hv hn hrun (latency_range _ _ _ _).1 hti⟩⟩
  obtain ⟨q, hq, hrest⟩ := hrun.split hm.le
  have hqi := hrest.phase_ne_idle (Nat.sub_pos_of_lt hm)
  have hedges := x.edges_of_accepted_busy hs hv hn hq hqi
  refine ⟨⟨_, decide_eq_true hqi, hedges⟩, fun e he hr => ?_⟩
  rw [x.edges_add (m + 1) 1 hedges, Progress.edges_one (Progress.edge_of_rst _ ?_)]
  · simp [State.afterReset, Progress.accepted, hseen]
  · simpa [State.now, List.headD_eq_head?_getD, he] using hr

/-! ### The command in progress (rule R170) -/

/-- A run of a legal core that has been reset, whose command in progress is the one its engine works
on. -/
structure Progress.Tracks (x : Progress) : Prop where
  resetSeen : x.state.resetSeen = true
  legal : x.state.regs.Legal
  command : x.command = none ↔ x.state.regs.phase = .idle

/-- The outcome is a run that keeps track of its command in progress, with `left` inputs left. -/
def TracksWithLeft (left : Nat) (o : Host.Outcome Progress Fault Refusal) : Prop :=
  ∃ y : Progress, o = .next y ∧ y.state.host.length = left ∧ y.Tracks

/-- A reset edge leaves nothing in progress, whatever the run before it. -/
theorem Progress.tracks_of_rst (x : Progress) (hr : x.state.now.rst = true) :
    TracksWithLeft (x.state.host.length - 1) x.edge :=
  ⟨_, x.edge_of_rst hr, List.length_tail, rfl, resetRegs_legal _, iff_of_true rfl rfl⟩

/-- An edge of an idle core without a command leaves nothing in progress. -/
theorem Progress.edge_of_quiet (x : Progress) (hs : x.state.Ready)
    (hv : x.state.now.cmdValid = false) :
    x.edge = .next { state := { x.state with host := x.state.host.tail }
                     command := none
                     observed := x.observed } := by
  have ⟨_, hi, hr⟩ := hs
  rw [x.edge_of_next (x.state.edge_of_quiet hs hv), x.after_idle _ hr hi, State.presented,
    if_neg (by simp [hv])]

/-- An engine step ends what is in progress exactly if it leaves the core idle. -/
theorem Progress.tracks_of_engine {x : Progress} (hx : x.Tracks) (hr : x.state.now.rst = false)
    (hi : x.state.regs.phase ≠ .idle) : TracksWithLeft (x.state.host.length - 1) x.edge := by
  obtain ⟨q, hq⟩ := hx.legal.advances hi
  rw [x.edge_of_next (x.state.edge_of_busy hx.resetSeen hr hi hq.step)]
  by_cases hqi : q.phase = .idle
  · rw [x.after_completion _ hr hi hqi]
    exact ⟨_, rfl, List.length_tail, hx.resetSeen, hq.legal, iff_of_true rfl hqi⟩
  · rw [x.after_busy _ hr hi hqi]
    exact ⟨_, rfl, List.length_tail, hx.resetSeen, hq.legal,
      iff_of_false (mt hx.command.mp hi) hqi⟩

theorem Progress.Tracks.edge {x : Progress} (hx : x.Tracks) :
    TracksWithLeft (x.state.host.length - 1) x.edge := by
  cases hr : x.state.now.rst with
  | true => exact x.tracks_of_rst hr
  | false =>
    by_cases hi : x.state.regs.phase = .idle
    · have hs : x.state.Ready := ⟨hx.resetSeen, hi, hr⟩
      cases hv : x.state.now.cmdValid with
      | true =>
        have hacc := accept_accepts x.state.now.cmdHdr x.state.now.payload x.state.regs
        exact ⟨_, x.edge_accept hs hv, List.length_tail, hx.resetSeen, hacc.legal hi hx.legal,
          iff_of_false (Option.some_ne_none _) hacc.busy.1⟩
      | false =>
        exact ⟨_, x.edge_of_quiet hs hv, List.length_tail, hx.resetSeen, hx.legal,
          iff_of_true rfl hi⟩
    · exact Progress.tracks_of_engine hx hr hi

/-- The edges of a run use up one input each, and keep track of the command in progress. -/
theorem Progress.Tracks.edges {x : Progress} (hx : x.Tracks) (n : Nat) :
    TracksWithLeft (x.state.host.length - n) (x.edges n) := by
  induction n generalizing x with
  | zero => exact ⟨x, rfl, rfl, hx⟩
  | succ n ih =>
    obtain ⟨y, hedge, hlen, hy⟩ := hx.edge
    obtain ⟨z, hedges, hlen', hz⟩ := ih hy
    exact ⟨z, (Progress.edges_succ n hedge).trans hedges, by omega, hz⟩

/-- From a reset edge on a run keeps track of the command in progress, whatever came before it. -/
theorem Progress.edges_of_startsRun (x : Progress) (n : Nat) (hx : x.state.StartsRun) :
    TracksWithLeft (x.state.host.length - (n + 1)) (x.edges (n + 1)) := by
  obtain ⟨y, hedge, hlen, hy⟩ := x.tracks_of_rst hx
  obtain ⟨z, hedges, hlen', hz⟩ := hy.edges n
  exact ⟨z, (Progress.edges_succ n hedge).trans hedges, by omega, hz⟩

/-! ### The end of a run (rule R170) -/

/-- A host that presents no further command presents none at the next edge. -/
theorem State.now_cmdValid_of_forall (s : State) (h : ∀ e ∈ s.host, e.cmdValid = false) :
    s.now.cmdValid = false := by
  unfold State.now
  cases hh : s.host with
  | nil => rfl
  | cons e es => exact h e (by simp [hh])

/-- An edge after the end of a run, a reset edge or an edge without a command, adds nothing. -/
theorem Progress.Ended.edge {y : Progress} (hs : y.state.resetSeen = true) (hy : y.Ended) :
    ∃ z : Progress, y.edge = .next z ∧ z.state.resetSeen = true ∧ z.observed = y.observed ∧
      z.Ended := by
  obtain ⟨hi, hquiet⟩ := hy
  have htail : ∀ e ∈ y.state.host.tail, e.cmdValid = false :=
    fun e he => hquiet e (List.mem_of_mem_tail he)
  cases hr : y.state.now.rst with
  | true => exact ⟨_, y.edge_of_rst hr, rfl, rfl, rfl, htail⟩
  | false =>
    have hv := y.state.now_cmdValid_of_forall hquiet
    exact ⟨_, y.edge_of_quiet ⟨hs, hi, hr⟩ hv, hs, rfl, hi, htail⟩

theorem Progress.Ended.edges {y : Progress} (hs : y.state.resetSeen = true) (hy : y.Ended)
    (m : Nat) : ∃ z : Progress, y.edges m = .next z ∧ z.observed = y.observed ∧ z.Ended := by
  induction m generalizing y with
  | zero => exact ⟨y, rfl, rfl, hy⟩
  | succ m ih =>
    obtain ⟨x, hedge, hseen, hobs, hx⟩ := hy.edge hs
    obtain ⟨z, hedges, hobs', hz⟩ := ih hseen hx
    exact ⟨z, (Progress.edges_succ m hedge).trans hedges, hobs'.trans hobs, hz⟩

/-- A run starts with an input of its host: a quiet host does not reset. -/
theorem State.StartsRun.host_length_pos {s : State} (hs : s.StartsRun) : 0 < s.host.length := by
  refine List.length_pos_of_ne_nil fun hnil => ?_
  simp [State.StartsRun, State.now, hnil] at hs

/-- Settles O56: from the reset edge on the run keeps track of the command in progress; when its
inputs are used up, that is all its end asks; and an ended run stays as it is. -/
theorem runEndsWhenNothingIsInProgress : Obligations.RunEndsWhenNothingIsInProgress := by
  refine ⟨fun s hs => ?_, fun x y n hx h => ?_, fun y m hs hy => Progress.Ended.edges hs hy m⟩
  · obtain ⟨n, hn⟩ := Nat.exists_eq_add_one.mpr hs.host_length_pos
    obtain ⟨y, hedges, hlen, hy⟩ := (Progress.start s).edges_of_startsRun n hs
    have hhost : y.state.host = [] :=
      List.eq_nil_of_length_eq_zero (hlen.trans (Nat.sub_eq_zero_of_le hn.le))
    refine ⟨y, by rw [State.run, hn, hedges], hhost, ?_⟩
    rw [hy.command, Progress.Ended, hhost]
    simp
  · obtain ⟨z, hedges, -, hz⟩ := x.edges_of_startsRun n hx
    cases h.symm.trans hedges
    exact hz.command

end Sys2Proof.Machine
end

section
/-! The constants `P` and `Q` (40_word_arithmetic.md section 4, rules R98 to R100). -/

namespace Sys2Proof.Machine

/-- The number of rule R98 fits its width: `P` is not reduced. -/
theorem constP_toNat (width : Width) (rounds keyBytes : Fin 256) :
    (constP ⟨width, rounds, keyBytes⟩).toNat =
      match width with
      | .w16 => 0xB7E1
      | .w32 => 0xB7E15163
      | .w64 => 0xB7E151628AED2A6B := by
  cases width <;> rfl

/-- The number of rule R99 fits its width: `Q` is not reduced. -/
theorem constQ_toNat (width : Width) (rounds keyBytes : Fin 256) :
    (constQ ⟨width, rounds, keyBytes⟩).toNat =
      match width with
      | .w16 => 0x9E37
      | .w32 => 0x9E3779B9
      | .w64 => 0x9E3779B97F4A7C15 := by
  cases width <;> rfl

theorem constP_odd (g : Config) : (constP g).toNat % 2 = 1 := by
  obtain ⟨width, rounds, keyBytes⟩ := g
  rw [constP_toNat]
  cases width <;> rfl

theorem constQ_odd (g : Config) : (constQ g).toNat % 2 = 1 := by
  obtain ⟨width, rounds, keyBytes⟩ := g
  rw [constQ_toNat]
  cases width <;> rfl

/-- `e` is known to within `10 ^ (-20)`, which even at `w = 64` is less than a fifth of a unit of
`P`. -/
theorem abs_constP_sub_lt_one (g : Config) :
    |((constP g).toNat : ℝ) - (Real.exp 1 - 2) * 2 ^ g.w| < 1 := by
  obtain ⟨hlo, hhi⟩ := abs_le.mp Real.exp_one_near_20
  obtain ⟨width, rounds, keyBytes⟩ := g
  rw [constP_toNat, abs_lt]
  cases width with
  | w16 | w32 | w64 =>
    simp only [Config.w, Width.bits]
    push_cast
    constructor <;> linarith

/-- Since `(φ - 1) * n = (√5 * n - n) / 2`, a number `c` is within 1 of it when `5 * n ^ 2` lies
strictly between the squares of `2 * (c - 1) + n` and `2 * (c + 1) + n`. -/
theorem abs_sub_goldenRatio_sub_one_mul_lt_one {c n : ℝ} (hc : 0 ≤ c) (hn : 0 ≤ n)
    (hlo : (2 * (c - 1) + n) ^ 2 < 5 * n ^ 2) (hhi : 5 * n ^ 2 < (2 * (c + 1) + n) ^ 2) :
    |c - (Real.goldenRatio - 1) * n| < 1 := by
  have hsq : (√5 * n) ^ 2 = 5 * n ^ 2 := by rw [mul_pow, Real.sq_sqrt (by norm_num)]
  rw [← hsq] at hlo hhi
  have hlower : 2 * (c - 1) + n < √5 * n := lt_of_pow_lt_pow_left₀ 2 (by positivity) hlo
  have hupper : √5 * n < 2 * (c + 1) + n := lt_of_pow_lt_pow_left₀ 2 (by positivity) hhi
  rw [Real.goldenRatio, abs_lt]
  constructor <;> linarith

theorem abs_constQ_sub_lt_one (g : Config) :
    |((constQ g).toNat : ℝ) - (Real.goldenRatio - 1) * 2 ^ g.w| < 1 := by
  obtain ⟨width, rounds, keyBytes⟩ := g
  rw [constQ_toNat]
  cases width with
  | w16 | w32 | w64 =>
    simp only [Config.w, Width.bits]
    exact abs_sub_goldenRatio_sub_one_mul_lt_one (by positivity) (by positivity) (by norm_num)
      (by norm_num)

/-- Settles O7, constant by constant: odd at each width, and within 1 of the real number by the
known decimals of `e` and by comparing squares for `φ`. -/
theorem constantsAreNearestOdd : Obligations.ConstantsAreNearestOdd := fun g =>
  ⟨⟨constP_odd g, abs_constP_sub_lt_one g⟩, ⟨constQ_odd g, abs_constQ_sub_lt_one g⟩⟩

end Sys2Proof.Machine
end
